-- ==== Sys2Proof/Word.lean ====
section
/-! DEFINITION. The word type of the core: an unsigned 16-bit integer (10_state R20, 00_scope R8). -/

namespace Sys2Proof

/-- A Word: registers, memory cells, stack entries, pc and stream elements are all one Word (R20). -/
abbrev Word := BitVec 16

/-- One byte of a program image given as bytes; the core itself addresses no byte (20_memory R42). -/
abbrev Byte := BitVec 8

end Sys2Proof
end

