-- ==== Sys2Proof/Syntax.lean ====
section
/-! DEFINITION. The instruction set as syntax: operand classes, the 22 opcodes, the 22 instructions
(30_encoding R60 to R65). -/

namespace Sys2Proof

/-- A raw operand word by its class (40_address_normalizer R80). -/
inductive Operand where
  /-- `Lit`: a word 0..32767; a value in a read position, a Memory Bank address in a write-target position. -/
  | lit (v : BitVec 15)
  /-- `Reg(i)`: the register selector 32768 + i. -/
  | reg (i : Fin 8)
  /-- `Invalid`: a word 32776..65535, kept as it stands; executing it raises AddressFault (R69). -/
  | invalid (w : Word)
  deriving DecidableEq, Repr

/-- The 22 opcodes; their numbers are `opcodeNumber` in Decode.lean (30_encoding R65). -/
inductive Opcode where
  | halt | set | push | pop | eq | gt | jmp | jt | jf | add | mult
  | mod | and | or | not | rmem | wmem | call | ret | out | inp | noop
  deriving DecidableEq, Repr

/-- One constructor per row of spec/opcode_table.json, operands in the order of their words (R64, R71). -/
inductive Instr where
  /-- `halt` (R125). -/
  | halt
  /-- `set a b` (R90). -/
  | set (a b : Operand)
  /-- `push a` (R91). -/
  | push (a : Operand)
  /-- `pop a` (R92). -/
  | pop (a : Operand)
  /-- `eq a b c` (R107). -/
  | eq (a b c : Operand)
  /-- `gt a b c` (R108). -/
  | gt (a b c : Operand)
  /-- `jmp a` (R120). -/
  | jmp (a : Operand)
  /-- `jt a b` (R121). -/
  | jt (a b : Operand)
  /-- `jf a b` (R122). -/
  | jf (a b : Operand)
  /-- `add a b c` (R101). -/
  | add (a b c : Operand)
  /-- `mult a b c` (R102). -/
  | mult (a b c : Operand)
  /-- `mod a b c` (R103). -/
  | mod (a b c : Operand)
  /-- `and a b c` (R104). -/
  | and (a b c : Operand)
  /-- `or a b c` (R105). -/
  | or (a b c : Operand)
  /-- `not a b` (R106). -/
  | not (a b : Operand)
  /-- `rmem a b` (R93). -/
  | rmem (a b : Operand)
  /-- `wmem a b` (R94). -/
  | wmem (a b : Operand)
  /-- `call a` (R123). -/
  | call (a : Operand)
  /-- `ret` (R124). -/
  | ret
  /-- `out a` (R130). -/
  | out (a : Operand)
  /-- `in a` (R131). -/
  | inp (a : Operand)
  /-- `noop` (R140). -/
  | noop
  deriving DecidableEq, Repr

/-- The opcode of an instruction. -/
def Instr.opcode : Instr → Opcode
  | .halt => .halt
  | .set _ _ => .set
  | .push _ => .push
  | .pop _ => .pop
  | .eq _ _ _ => .eq
  | .gt _ _ _ => .gt
  | .jmp _ => .jmp
  | .jt _ _ => .jt
  | .jf _ _ => .jf
  | .add _ _ _ => .add
  | .mult _ _ _ => .mult
  | .mod _ _ _ => .mod
  | .and _ _ _ => .and
  | .or _ _ _ => .or
  | .not _ _ => .not
  | .rmem _ _ => .rmem
  | .wmem _ _ => .wmem
  | .call _ => .call
  | .ret => .ret
  | .out _ => .out
  | .inp _ => .inp
  | .noop => .noop

/-- The operands of an instruction, in the order of their words. -/
def Instr.operands : Instr → List Operand
  | .halt => []
  | .set a b => [a, b]
  | .push a => [a]
  | .pop a => [a]
  | .eq a b c => [a, b, c]
  | .gt a b c => [a, b, c]
  | .jmp a => [a]
  | .jt a b => [a, b]
  | .jf a b => [a, b]
  | .add a b c => [a, b, c]
  | .mult a b c => [a, b, c]
  | .mod a b c => [a, b, c]
  | .and a b c => [a, b, c]
  | .or a b c => [a, b, c]
  | .not a b => [a, b]
  | .rmem a b => [a, b]
  | .wmem a b => [a, b]
  | .call a => [a]
  | .ret => []
  | .out a => [a]
  | .inp a => [a]
  | .noop => []

end Sys2Proof
end

