-- ==== Sys2Proof/WellFormed.lean ====
section
/-! DEFINITION. Which instructions as syntax stand for words: an operand of the class Invalid holds a word of that
class (40_address_normalizer R80). -/

namespace Sys2Proof

/-- An Invalid operand word is 32776..65535; the other two classes are well-formed by their types (R80). -/
def Operand.wf : Operand → Bool
  | .lit _ => true
  | .reg _ => true
  | .invalid w => decide (32776 ≤ w.toNat)

/-- Every operand of the instruction is well-formed. -/
def Instr.wf (i : Instr) : Bool := i.operands.all Operand.wf

end Sys2Proof
end

