-- ==== Sys2Proof/Decode.lean ====
section
/-! DEFINITION. The decoder, total on any words and rejecting by name, and after it the encoder, both from the one
opcode map (30_encoding R60 to R70). -/

namespace Sys2Proof

/-- OPCODE_MAP: the number of each opcode (30_encoding R65). The only place the numbers stand.
PRESUMED by the spec (its decision D1, not in the source), unsafe if a number is wrong: log entry 1. -/
def opcodeNumber : Opcode → Word
  | .halt => 0
  | .set => 1
  | .push => 2
  | .pop => 3
  | .eq => 4
  | .gt => 5
  | .jmp => 6
  | .jt => 7
  | .jf => 8
  | .add => 9
  | .mult => 10
  | .mod => 11
  | .and => 12
  | .or => 13
  | .not => 14
  | .rmem => 15
  | .wmem => 16
  | .call => 17
  | .ret => 18
  | .out => 19
  | .inp => 20
  | .noop => 21

/-- The whole instruction set (60_exceptions R176). -/
def allOpcodes : List Opcode :=
  [.halt, .set, .push, .pop, .eq, .gt, .jmp, .jt, .jf, .add, .mult,
   .mod, .and, .or, .not, .rmem, .wmem, .call, .ret, .out, .inp, .noop]

/-- The opcode a word names: the whole 16-bit word is compared, raw, never normalized (R61, R68). -/
def opcodeOfWord (w : Word) : Option Opcode :=
  allOpcodes.find? fun op => opcodeNumber op == w

/-- The class of a raw operand word (R62, 40_address_normalizer R80). -/
def Operand.ofWord (w : Word) : Operand :=
  if w.toNat < 32768 then .lit (w.setWidth 15)
  else if w.toNat < 32776 then .reg (Fin.ofNat 8 (w.toNat - 32768))
  else .invalid w

/-- The raw operand word of a class (R62). -/
def Operand.toWord : Operand → Word
  | .lit v => v.setWidth 16
  | .reg i => BitVec.ofNat 16 (32768 + i.val)
  | .invalid w => w

/-- Why a sequence of words holds no instruction at its start (46_execution_loop R146 steps 1 to 3). -/
inductive DecodeError where
  /-- There is no word at all: the opcode fetch is out of range (step 1). -/
  | noOpcodeWord
  /-- The first word is none of the 22 opcode numbers (step 2, R68). -/
  | unknownOpcode (w : Word)
  /-- An operand word is missing: it lies beyond the words given (step 3). -/
  | missingOperand
  deriving DecidableEq, Repr

/-- What decoding answers: the instruction and the words after it, or a rejection by name. -/
abbrev Decoded := Except DecodeError (Instr × List Word)

/-- Format Z: no operand word (R64). -/
def decodeZ (i : Instr) (ws : List Word) : Decoded := .ok (i, ws)

/-- Formats S and D: one operand word (R64). -/
def decode1 (f : Operand → Instr) : List Word → Decoded
  | a :: ws => .ok (f (Operand.ofWord a), ws)
  | [] => .error .missingOperand

/-- Formats DS and SS: two operand words (R64). -/
def decode2 (f : Operand → Operand → Instr) : List Word → Decoded
  | a :: b :: ws => .ok (f (Operand.ofWord a) (Operand.ofWord b), ws)
  | _ => .error .missingOperand

/-- Format DSS: three operand words (R64). -/
def decode3 (f : Operand → Operand → Operand → Instr) : List Word → Decoded
  | a :: b :: c :: ws => .ok (f (Operand.ofWord a) (Operand.ofWord b) (Operand.ofWord c), ws)
  | _ => .error .missingOperand

/-- The operand words of an opcode; the opcode alone fixes their number (R60, R65, R66). -/
def decodeOperands : Opcode → List Word → Decoded
  | .halt => decodeZ .halt
  | .set => decode2 .set
  | .push => decode1 .push
  | .pop => decode1 .pop
  | .eq => decode3 .eq
  | .gt => decode3 .gt
  | .jmp => decode1 .jmp
  | .jt => decode2 .jt
  | .jf => decode2 .jf
  | .add => decode3 .add
  | .mult => decode3 .mult
  | .mod => decode3 .mod
  | .and => decode3 .and
  | .or => decode3 .or
  | .not => decode2 .not
  | .rmem => decode2 .rmem
  | .wmem => decode2 .wmem
  | .call => decode1 .call
  | .ret => decodeZ .ret
  | .out => decode1 .out
  | .inp => decode1 .inp
  | .noop => decodeZ .noop

/-- The instruction at the start of a sequence of words (R60, R66); the opcode is judged before the operand words
are looked for (46_execution_loop R146). -/
def decode : List Word → Decoded
  | [] => .error .noOpcodeWord
  | w :: ws =>
    match opcodeOfWord w with
    | some op => decodeOperands op ws
    | none => .error (.unknownOpcode w)

/-- The words of an instruction: the opcode word, then the operand words in order (R60, R64). -/
def encode (i : Instr) : List Word :=
  opcodeNumber i.opcode :: i.operands.map Operand.toWord

/-- The length of an instruction in words (R60). -/
def Instr.length (i : Instr) : Nat := 1 + i.operands.length

/-- The four words of a number whose bit 0 is bit 0 of the first word, every bit from `nbits` on being 0. -/
def tableWords (nbits w : Nat) : List Word :=
  let v := w % 2 ^ nbits
  [BitVec.ofNat 16 v, BitVec.ofNat 16 (v / 2 ^ 16), BitVec.ofNat 16 (v / 2 ^ 32), BitVec.ofNat 16 (v / 2 ^ 48)]

/-- The instruction the decoder reads from `nbits` bits numbered as spec/opcode_table.json numbers them. -/
def decodeTableWord (nbits w : Nat) : Option Instr :=
  match decode (tableWords nbits w) with
  | .ok (i, _) => some i
  | .error _ => none

/-- Image words from bytes, low byte first; `none` when the number of bytes is odd (20_memory R42, R43). -/
def wordsOfBytes : List Byte → Option (List Word)
  | [] => some []
  | [_] => none
  | lo :: hi :: bs => (wordsOfBytes bs).map fun ws => BitVec.ofNat 16 (lo.toNat + 256 * hi.toNat) :: ws

/-- The decoder on bytes as an image gives them: total, an odd byte count or a bad word giving `none`. -/
def decodeBytes (bs : List Byte) : Option Instr :=
  match wordsOfBytes bs with
  | some ws => (decode ws).toOption.map Prod.fst
  | none => none

end Sys2Proof
end

