-- ==== Sys2Proof/Config.lean ====
section
/-! DEFINITION. The parameters of 00_scope R7 that are not instruction encodings, and the one free value of the
machine. OPCODE_MAP stands in Decode.lean and NEWLINE in Machine/Ops.lean, each in one place, because those
files can be mended. STACK_CAPACITY is unbounded (log entry 9). -/

namespace Sys2Proof

/-- REG_RESET: the value of each register after reset (10_state R25, the spec's decision D3).
UNVERIFIED, unsafe if the chip differs: log entry 2. -/
def Config.regReset : Word := 0

/-- PC_RESET: the value of the Program Counter after reset (10_state R31, the spec's decision D2).
UNVERIFIED, unsafe if the chip differs: log entry 2. -/
def Config.pcReset : Word := 0

/-- FREE VALUE, no body: what the host does at its n-th turn while the core waits in `in`. `some line`: it
refills with that line; `none`: it does nothing yet (44_io R132, R133: any finite sequence of Words, at any time
or never). DESIGN CHOICE, safe: log entry 3. -/
opaque Config.hostLine : Nat → Option (List Word)

end Sys2Proof
end

