-- ==== Sys2Proof/Machine/State.lean ====
section
/-! DEFINITION. The state of the core as plain data, the reasons a step can stop, and the state after reset
(10_state). -/

namespace Sys2Proof.Machine

/-- The four fatal kinds (60_exceptions R160 to R164). -/
inductive FailKind where
  /-- `pop` or `ret` on an empty Call Stack (R161). -/
  | stackUnderflow
  /-- `mod` with a zero divisor (R162). -/
  | arithmeticFault
  /-- The opcode word is none of the 22 opcode numbers (R163). -/
  | decodeFault
  /-- An address, operand word or target out of range (R164). -/
  | addressFault
  deriving DecidableEq, Repr

/-- STATUS (10_state R34). -/
inductive Status where
  | running
  | halted
  | failed (kind : FailKind)
  deriving DecidableEq, Repr

/-- The Memory Bank: (word address, Word) pairs, canonical when the addresses strictly rise, lie below 32768, and
no entry holds 0, which is what an unlisted address reads as (10_state R26: zero-filled). The unit of addressing is
the Word and there is no byte address (20_memory R40, R42), so a cell is a Word, not a byte: DESIGN CHOICE, safe,
log entry 7. -/
abbrev Memory := List (Nat × Word)

/-- Every piece of state of 10_state section 8, and one field of the model's own. -/
structure State where
  /-- The Memory Bank (R26). -/
  mem : Memory
  /-- The Register File, `regs[i]` being `x[i]` (R23). -/
  regs : Vector Word 8
  /-- The Call Stack, its top first (R27). -/
  stack : List Word
  /-- The Program Counter (R28). -/
  pc : Word
  /-- The Output Stream OUT, oldest element first (R32). -/
  out : List Word
  /-- The Input Queue INQ, oldest element first (R33). -/
  inq : List Word
  /-- STATUS (R34). -/
  status : Status
  /-- THE MODEL'S OWN: how many turns the host has had while the core waited; `Config.hostLine` is applied to it.
  DESIGN CHOICE, safe: log entry 3. -/
  hostTurns : Nat
  deriving DecidableEq, Repr

/-- Why a step answers no next state. Both are the end of the machine, never the outcome of an instruction. -/
inductive Fault where
  /-- Raised by `step` alone, when STATUS is Halted: the core has no step (46_execution_loop R145, R150). Safe. -/
  | hasHalted
  /-- Raised by `step` alone, when STATUS is Failed(kind): the core has no step (R145, R151). Safe. -/
  | hasFailed (kind : FailKind)
  deriving DecidableEq, Repr

/-- Why an instruction is given no meaning. -/
inductive Refusal where
  /-- Raised by an arm of `exec` whose instruction has no meaning yet; no arm is left so. Safe. -/
  | notModelled (mnemonic : String)
  deriving DecidableEq, Repr

/-- The machine right after reset with the empty image and no pre-seeded input (70_reset R190). A program and
pre-seeded input come in by `State.boot` in Machine/Boot.lean. -/
def State.reset : State where
  mem := []
  regs := Vector.replicate 8 Config.regReset
  stack := []
  pc := Config.pcReset
  out := []
  inq := []
  status := .running
  hostTurns := 0

end Sys2Proof.Machine
end

