-- ==== Sys2Proof/Machine/Ops.lean ====
section
/-! DEFINITION. The named operations over memory, registers, stack, streams and pc; taking a fatal condition; the
two-phase form of every instruction (20_memory R41, 10_state, 60_exceptions R166, 00_scope R11). -/

namespace Sys2Proof.Machine

/-- One step of the machine or of one instruction. -/
abbrev StepOutcome := Host.Outcome State Fault Refusal

/-! The Memory Bank. -/

/-- MemRead: the Word in a cell; an unlisted cell holds 0 (20_memory R41, 10_state R26). -/
def Memory.read : Memory → Nat → Word
  | [], _ => 0
  | (k, w) :: m, a => if k = a then w else Memory.read m a

/-- Memory without any entry for a cell. -/
def Memory.erase : Memory → Nat → Memory
  | [], _ => []
  | (k, w) :: m, a => if k = a then Memory.erase m a else (k, w) :: Memory.erase m a

/-- Memory with an entry put where the rising order of addresses wants it. -/
def Memory.place : Memory → Nat → Word → Memory
  | [], a, v => [(a, v)]
  | (k, w) :: m, a, v => if a < k then (a, v) :: (k, w) :: m else (k, w) :: Memory.place m a v

/-- MemWrite: a cell replaced by a Word, all 16 bits (20_memory R41); a cell set to 0 is unlisted again. -/
def Memory.write (m : Memory) (a : Nat) (v : Word) : Memory :=
  if v = 0 then m.erase a else (m.erase a).place a v

/-- The canonical form from an address on. -/
def Memory.wfFrom : Nat → Memory → Bool
  | _, [] => true
  | lo, (k, w) :: m => decide (lo ≤ k) && decide (k < 32768) && decide (w ≠ 0) && Memory.wfFrom (k + 1) m

/-- The canonical form: addresses strictly rise and lie in 0..32767, no listed Word is 0. -/
def Memory.wf (m : Memory) : Bool := m.wfFrom 0

/-- At most `n` consecutive words from an address, stopping at the top of the Memory Bank; no wrap
(46_execution_loop R146 steps 1 and 3, 10_state R30). -/
def Memory.words (m : Memory) : Nat → Nat → List Word
  | _, 0 => []
  | a, n + 1 => if a < 32768 then m.read a :: m.words (a + 1) n else []

/-- Consecutive cells replaced by words, from an address on. -/
def Memory.writeWords : Memory → Nat → List Word → Memory
  | m, _, [] => m
  | m, a, w :: ws => Memory.writeWords (m.write a w) (a + 1) ws

/-! Registers, stack, streams, pc. -/

/-- `x[i]` (00_scope R10). -/
def State.reg (s : State) (i : Fin 8) : Word := s.regs[i]

/-- `x[i] <- v`: all 16 bits; no register is hardwired (10_state R22, R23). -/
def State.setReg (s : State) (i : Fin 8) (v : Word) : State := { s with regs := s.regs.set i v }

/-- MemRead on the state. -/
def State.memRead (s : State) (a : Nat) : Word := s.mem.read a

/-- MemWrite on the state. -/
def State.memWrite (s : State) (a : Nat) (v : Word) : State := { s with mem := s.mem.write a v }

/-- Push(v) (10_state R27); the stack is unbounded (60_exceptions R178, log entry 9). -/
def State.push (s : State) (v : Word) : State := { s with stack := v :: s.stack }

/-- Pop() without its result (10_state R27). -/
def State.popped (s : State) : State := { s with stack := s.stack.tail }

/-- Top(), or StackUnderflow when Empty() (10_state R27, 60_exceptions R161). -/
def State.top (s : State) : Except FailKind Word :=
  match s.stack with
  | v :: _ => .ok v
  | [] => .error .stackUnderflow

/-- OutAppend(v) (44_io R130). -/
def State.outAppend (s : State) (v : Word) : State := { s with out := s.out ++ [v] }

/-- InDequeue() without its result (44_io R131). -/
def State.inDequeue (s : State) : State := { s with inq := s.inq.tail }

/-- `pc <- t`. -/
def State.jump (s : State) (t : Word) : State := { s with pc := t }

/-- `pc <- pc + n`, n the instruction's length (10_state R29). An instruction that was fetched lies inside the
Memory Bank, so the sum is exact and at most 32768 (R30); called on a pc above that, which no run reaches, the
16-bit sum could wrap: DESIGN CHOICE, log entry 8. -/
def State.advance (s : State) (n : Nat) : State := { s with pc := s.pc + BitVec.ofNat 16 n }

/-! Fatal conditions and normal stop. -/

/-- `raise K`: STATUS becomes Failed(K) and nothing else changes; pc still names the instruction
(60_exceptions R166). There is no return from a fatal condition (R167), so no operation for one. -/
def State.raise (s : State) (k : FailKind) : State := { s with status := .failed k }

/-- The normal stop: STATUS becomes Halted and nothing else changes (43_control_flow R125). -/
def State.halt (s : State) : State := { s with status := .halted }

/-- The two phases of every instruction (00_scope R11): phase 1 answers the state phase 2 would commit, or the
first fatal condition; on the latter nothing is committed and the condition is taken (60_exceptions R166). -/
def State.complete (s : State) (phase1 : Except FailKind State) : StepOutcome :=
  match phase1 with
  | .ok t => .next t
  | .error k => .next (s.raise k)

/-! The host's refill of the Input Queue. -/

/-- NEWLINE: the code the host appends after each line (00_scope R7, 44_io R133). PRESUMED by the spec (D19),
unsafe if the code differs: log entry 5. -/
def newline : Word := 10

/-- REFILL(line): the line's codes, then NEWLINE, appended to INQ (44_io R133). -/
def State.refill (s : State) (line : List Word) : State := { s with inq := s.inq ++ line ++ [newline] }

/-- One turn of the host while the core waits in `in` (44_io R132, R133): it refills with a line of its own choice
or does nothing yet. No other state of the spec's changes and pc stays on the `in`. The line is the free value
`Config.hostLine`: DESIGN CHOICE, safe, log entries 3 and 4. -/
def State.awaitInput (s : State) : State :=
  match Config.hostLine s.hostTurns with
  | some line => { s.refill line with hostTurns := s.hostTurns + 1 }
  | none => { s with hostTurns := s.hostTurns + 1 }

/-! STATUS as the host reads it. -/

/-- The `kind` field's code of a fatal kind (60_exceptions R165). -/
def FailKind.code : FailKind → Nat
  | .stackUnderflow => 1
  | .arithmeticFault => 2
  | .decodeFault => 3
  | .addressFault => 4

/-- The `state` field, bits 1:0 (10_state R35). -/
def Status.stateField : Status → Nat
  | .running => 0
  | .halted => 1
  | .failed _ => 2

/-- The `kind` field, bits 4:2 (10_state R35). -/
def Status.kindField : Status → Nat
  | .running => 0
  | .halted => 0
  | .failed k => k.code

/-- STATUS as a register the host reads (10_state R35). -/
def Status.toWord (st : Status) : Word := BitVec.ofNat 16 (st.stateField + 4 * st.kindField)

end Sys2Proof.Machine
end

