-- ==== Sys2Proof/Machine/Flags.lean ====
section
/-! DEFINITION. The core has no flags, condition codes or carry (10_state R37); what stands here is what takes their
place: the result computations of the ALU and the conditions of comparisons and jumps (42_arithmetic_logic R101 to
R109, 43_control_flow R121, R122). Sources are any two Words, read as unsigned integers (R109; the spec's decisions
D13 and D14 above 32767: log entry 10). -/

namespace Sys2Proof.Machine

/-- A natural number modulo 32768, as a Word with bit 15 clear (R109). -/
def reduce (n : Nat) : Word := BitVec.ofNat 16 (n % 32768)

/-- Sum modulo 32768 (R101). -/
def addWord (x y : Word) : Word := reduce (x.toNat + y.toNat)

/-- Exact product modulo 32768 (R102). -/
def multWord (x y : Word) : Word := reduce (x.toNat * y.toNat)

/-- Unsigned remainder modulo 32768, or ArithmeticFault for the divisor 0 (R103, 60_exceptions R162). -/
def modWord (x y : Word) : Except FailKind Word :=
  if y = 0 then .error .arithmeticFault else .ok (reduce (x.toNat % y.toNat))

/-- Bitwise AND, masked to 15 bits (R104). -/
def andWord (x y : Word) : Word := (x &&& y) &&& 0x7FFF

/-- Bitwise OR, masked to 15 bits (R105). -/
def orWord (x y : Word) : Word := (x ||| y) &&& 0x7FFF

/-- Bitwise complement, masked to 15 bits (R106). -/
def notWord (x : Word) : Word := ~~~x &&& 0x7FFF

/-- The outcome of a comparison as a Word: 1 or 0 (R107). -/
def truthWord (p : Bool) : Word := if p then 1 else 0

/-- Equality of whole Words (R107). -/
def eqWord (x y : Word) : Word := truthWord (x == y)

/-- Strict unsigned greater-than of whole Words (R108). -/
def gtWord (x y : Word) : Word := truthWord (decide (x.toNat > y.toNat))

/-- The condition of `jt`: any Word but 0 (R121). -/
def isNonzero (x : Word) : Bool := x != 0

/-- The condition of `jf`: the Word 0 (R122). -/
def isZero (x : Word) : Bool := x == 0

end Sys2Proof.Machine
end

