-- ==== Sys2Proof/Machine/Operands.lean ====
section
/-! DEFINITION. The address normalizer: read normalization, write-target resolution and the address and target
checks (40_address_normalizer R80 to R88). -/

namespace Sys2Proof.Machine

/-- RdOp: a literal stands for itself, a selector for its register's Word, verbatim and once; an invalid word raises
AddressFault (R81, R82). -/
def State.rdOp (s : State) : Operand → Except FailKind Word
  | .lit v => .ok (v.setWidth 16)
  | .reg i => .ok (s.reg i)
  | .invalid _ => .error .addressFault

/-- ChkDst: any literal or selector is a write target (R83). -/
def chkDst : Operand → Except FailKind Unit
  | .lit _ => .ok ()
  | .reg _ => .ok ()
  | .invalid _ => .error .addressFault

/-- ChkRegDst: the destination of `set` is a register selector, which it answers (R85). -/
def chkRegDst : Operand → Except FailKind (Fin 8)
  | .lit _ => .error .addressFault
  | .reg i => .ok i
  | .invalid _ => .error .addressFault

/-- WrOp, after ChkDst passed: a literal writes that Memory Bank cell, a selector that register, verbatim (R83).
On an invalid word, which ChkDst never lets through, it writes nothing. -/
def State.wrOp (s : State) (a : Operand) (v : Word) : State :=
  match a with
  | .lit w => s.memWrite w.toNat v
  | .reg i => s.setReg i v
  | .invalid _ => s

/-- ChkAddr: an effective address lies in 0..32767 (R86). -/
def chkAddr (e : Word) : Except FailKind Unit :=
  if e.toNat < 32768 then .ok () else .error .addressFault

/-- ChkTarget: a control-transfer target lies in 0..32767 (R87). -/
def chkTarget (t : Word) : Except FailKind Unit :=
  if t.toNat < 32768 then .ok () else .error .addressFault

end Sys2Proof.Machine
end

