-- ==== Sys2Proof/Machine/Alu.lean ====
section
/-! DEFINITION. add, mult, mod, and, or, not, eq, gt (42_arithmetic_logic R100 to R111). -/

namespace Sys2Proof.Machine

/-- The common shape of the binary ALU instructions (R100): classes of a, b, c in order, then the result, which for
`mod` may raise; then the write and the advance by 4. -/
def aluBinary (f : Word → Word → Except FailKind Word) (a b c : Operand) (s : State) : StepOutcome :=
  s.complete do
    chkDst a
    let vb ← s.rdOp b
    let vc ← s.rdOp c
    let r ← f vb vc
    return (s.wrOp a r).advance 4

/-- `add a b c` (R101). -/
def execAdd (a b c : Operand) (s : State) : StepOutcome := aluBinary (fun x y => .ok (addWord x y)) a b c s

/-- `mult a b c` (R102). -/
def execMult (a b c : Operand) (s : State) : StepOutcome := aluBinary (fun x y => .ok (multWord x y)) a b c s

/-- `mod a b c` (R103). -/
def execMod (a b c : Operand) (s : State) : StepOutcome := aluBinary modWord a b c s

/-- `and a b c` (R104). -/
def execAnd (a b c : Operand) (s : State) : StepOutcome := aluBinary (fun x y => .ok (andWord x y)) a b c s

/-- `or a b c` (R105). -/
def execOr (a b c : Operand) (s : State) : StepOutcome := aluBinary (fun x y => .ok (orWord x y)) a b c s

/-- `eq a b c` (R107). -/
def execEq (a b c : Operand) (s : State) : StepOutcome := aluBinary (fun x y => .ok (eqWord x y)) a b c s

/-- `gt a b c` (R108). -/
def execGt (a b c : Operand) (s : State) : StepOutcome := aluBinary (fun x y => .ok (gtWord x y)) a b c s

/-- `not a b` (R106), the one unary instruction. -/
def execNot (a b : Operand) (s : State) : StepOutcome :=
  s.complete do
    chkDst a
    let vb ← s.rdOp b
    return (s.wrOp a (notWord vb)).advance 3

end Sys2Proof.Machine
end

