-- ==== Sys2Proof/Machine/ControlFlow.lean ====
section
/-! DEFINITION. jmp, jt, jf, call, ret, halt (43_control_flow R120 to R126). Every transfer checks its target before
any state changes (40_address_normalizer R87). -/

namespace Sys2Proof.Machine

/-- `jmp a` (R120). -/
def execJmp (a : Operand) (s : State) : StepOutcome :=
  s.complete do
    let t ← s.rdOp a
    chkTarget t
    return s.jump t

/-- The common shape of the conditional jumps (R121, R122): both operands are class-checked whether or not the
branch is taken (40_address_normalizer R88); the target's range only when it is. -/
def branch (taken : Word → Bool) (a b : Operand) (s : State) : StepOutcome :=
  s.complete do
    let va ← s.rdOp a
    let t ← s.rdOp b
    if taken va then
      chkTarget t
      return s.jump t
    else
      return s.advance 3

/-- `jt a b` (R121). -/
def execJt (a b : Operand) (s : State) : StepOutcome := branch isNonzero a b s

/-- `jf a b` (R122). -/
def execJf (a b : Operand) (s : State) : StepOutcome := branch isZero a b s

/-- `call a` (R123): the return address is pc + 2, the address after the `call`. -/
def execCall (a : Operand) (s : State) : StepOutcome :=
  s.complete do
    let t ← s.rdOp a
    chkTarget t
    return (s.push (s.pc + 2)).jump t

/-- `ret` (R124): the stack is popped only when its top is a legal target. -/
def execRet (s : State) : StepOutcome :=
  s.complete do
    let t ← s.top
    chkTarget t
    return s.popped.jump t

/-- `halt` (R125): STATUS alone changes, pc stays (the spec's decision D22: log entry 11). -/
def execHalt (s : State) : StepOutcome := s.complete (.ok s.halt)

end Sys2Proof.Machine
end

