-- ==== Sys2Proof/Machine/DataMovement.lean ====
section
/-! DEFINITION. set, push, pop, rmem, wmem (41_data_movement R90 to R95). Words move verbatim, all 16 bits (R95, the
spec's decision D15: log entry 12). -/

namespace Sys2Proof.Machine

/-- `set a b` (R90): a literal destination raises AddressFault (40_address_normalizer R85, 90_conflicts C1). -/
def execSet (a b : Operand) (s : State) : StepOutcome :=
  s.complete do
    let i ← chkRegDst a
    let v ← s.rdOp b
    return (s.setReg i v).advance 3

/-- `push a` (R91). -/
def execPush (a : Operand) (s : State) : StepOutcome :=
  s.complete do
    let v ← s.rdOp a
    return (s.push v).advance 2

/-- `pop a` (R92): the operand's class is checked before the stack (60_exceptions R168). -/
def execPop (a : Operand) (s : State) : StepOutcome :=
  s.complete do
    chkDst a
    let v ← s.top
    return (s.popped.wrOp a v).advance 2

/-- `rmem a b` (R93): the address read is the value of `b`. -/
def execRmem (a b : Operand) (s : State) : StepOutcome :=
  s.complete do
    chkDst a
    let e ← s.rdOp b
    chkAddr e
    return (s.wrOp a (s.memRead e.toNat)).advance 3

/-- `wmem a b` (R94): `a` is read like any value and is the address written (90_conflicts C2). -/
def execWmem (a b : Operand) (s : State) : StepOutcome :=
  s.complete do
    let e ← s.rdOp a
    let v ← s.rdOp b
    chkAddr e
    return (s.memWrite e.toNat v).advance 3

end Sys2Proof.Machine
end

