-- ==== Sys2Proof/Machine/InputOutput.lean ====
section
/-! DEFINITION. out and in (44_io R130 to R137). Stream elements are whole Words, verbatim (the spec's decisions D17
and D18: log entry 12). -/

namespace Sys2Proof.Machine

/-- `out a` (R130): never blocks, refuses no value. -/
def execOut (a : Operand) (s : State) : StepOutcome :=
  s.complete do
    let v ← s.rdOp a
    return (s.outAppend v).advance 2

/-- `in a` (R131): the destination is checked before any waiting. On an empty queue the core waits with pc still on
the `in` and the host has its turn (R132, R133); the same `in` completes at a later step, once INQ is not empty.
A wait is a next state, not a stop: DESIGN CHOICE, safe, log entry 4. -/
def execIn (a : Operand) (s : State) : StepOutcome :=
  s.complete do
    chkDst a
    match s.inq with
    | [] => return s.awaitInput
    | ch :: _ => return (s.inDequeue.wrOp a ch).advance 2

end Sys2Proof.Machine
end

