-- ==== Sys2Proof/Machine/Noop.lean ====
section
/-! DEFINITION. noop (45_noop R140). -/

namespace Sys2Proof.Machine

/-- `noop` (R140): pc advances by 1, nothing else. -/
def execNoop (s : State) : StepOutcome := s.complete (.ok (s.advance 1))

end Sys2Proof.Machine
end

