-- ==== Sys2Proof/Machine/Fetch.lean ====
section
/-! DEFINITION. Fetching and decoding at the Program Counter, and when the core waits (46_execution_loop R146,
44_io R132). -/

namespace Sys2Proof.Machine

/-- The words the fetch unit can reach from pc: up to four, none beyond address 32767, no wrap (R146, 10_state R30). -/
def State.fetchWords (s : State) : List Word := s.mem.words s.pc.toNat 4

/-- Steps 1 to 3 of the cycle: the instruction at pc, or the rejection that says which step failed (R146). -/
def State.fetchInstr (s : State) : Except DecodeError Instr := (decode s.fetchWords).map Prod.fst

/-- The fatal condition of a rejected fetch (R146 steps 1 to 3, 60_exceptions R163, R164). -/
def fetchFailure : DecodeError → FailKind
  | .noOpcodeWord => .addressFault
  | .unknownOpcode _ => .decodeFault
  | .missingOperand => .addressFault

/-- The core is waiting: it is Running, on an `in` with a valid destination, and INQ is empty (44_io R132); a
function of the other state, not state of its own (10_state R39). -/
def State.waiting (s : State) : Bool :=
  s.status == .running && s.inq.isEmpty &&
    match s.fetchInstr with
    | .ok (.inp a) => (chkDst a).isOk
    | _ => false

/-- REFILL(line) as the host's interface: accepted only while the core waits (44_io R133, 46_execution_loop R154, R155). -/
def State.hostRefill (s : State) (line : List Word) : Option State := if s.waiting then some (s.refill line) else none

/-- The state with words stored from pc on. When fewer than four words are left before the top of the Memory Bank, pc
is 0 first; STATUS is Running, which a fetch needs (log entry 13). -/
def State.placeAtPc (s : State) (ws : List Word) : State :=
  let pc : Word := if s.pc.toNat + 4 ≤ 32768 then s.pc else 0
  { s with pc := pc, status := .running, mem := s.mem.writeWords pc.toNat ws }

end Sys2Proof.Machine
end

