-- ==== Sys2Proof/Machine/Step.lean ====
section
/-! DEFINITION. One cycle of the core (46_execution_loop R145 to R147). -/

namespace Sys2Proof.Machine

/-- The cycle (R146): fetch and decode at pc, then the instruction; a rejected fetch is taken as its fatal condition.
In Halted and Failed the core has no step (R145, R150, R151): that is a fault of the model's, log entry 6. -/
def step (s : State) : Host.Outcome State Fault Refusal :=
  match s.status with
  | .halted => .fault .hasHalted
  | .failed k => .fault (.hasFailed k)
  | .running =>
    match s.fetchInstr with
    | .ok i => exec i s
    | .error e => .next (s.raise (fetchFailure e))

/-- The state whose very next step runs the instruction of `nbits` bits `w`, numbered as spec/opcode_table.json
numbers them (log entry 13). -/
def State.withFetchWord (s : State) (nbits w : Nat) : State := s.placeAtPc (tableWords nbits w)

end Sys2Proof.Machine
end

