-- ==== Sys2Proof/Machine/Boot.lean ====
section
/-! DEFINITION. RESET(IMAGE, PRESEED): the creation of an engine instance (70_reset R190, 20_memory R42, R43,
46_execution_loop R154). -/

namespace Sys2Proof.Machine

/-- The state after reset with an image and pre-seeded input: the image verbatim from address 0, zeros after it, INQ
the pre-seeded sequence, the rest as `State.reset` (R190, 10_state R26, R33). An image of more than 32768 Words is
refused: no engine instance exists (R43). -/
def State.boot (image preseed : List Word) : Option State :=
  if image.length ≤ 32768 then
    some { State.reset with mem := Memory.writeWords [] 0 image, inq := preseed }
  else none

/-- The same from the image's bytes, little-endian; an odd number of bytes is refused (20_memory R42, R43). -/
def State.bootBytes (image : List Byte) (preseed : List Word) : Option State :=
  match wordsOfBytes image with
  | some ws => State.boot ws preseed
  | none => none

end Sys2Proof.Machine
end

