-- ==== Sys2Proof/Machine/Run.lean ====
section
/-! DEFINITION. RUN(max_steps): the run loop and its step budget (46_execution_loop R148 to R152). -/

namespace Sys2Proof.Machine

/-- One invocation of `run` with `budget` cycles left, followed for `ticks` steps of the model. `some t`: it has
returned, leaving `t`, whose STATUS is what it returns. `none`: it has not returned yet. A cycle is counted when it
completes; a step spent waiting in `in` completes no cycle and is not counted (R148, 44_io R132). `ticks` only bounds
the evaluation, since a host that never refills lets the core wait for ever: DESIGN CHOICE, safe, log entry 14. -/
def run : (ticks budget : Nat) → State → Option State
  | 0, budget, s => if budget = 0 ∨ s.status ≠ .running then some s else none
  | ticks + 1, budget, s =>
    if budget = 0 ∨ s.status ≠ .running then some s
    else
      match step s with
      | .next t => run ticks (if s.waiting then budget else budget - 1) t
      | .fault _ => none
      | .refused _ => none

/-- How many cycles complete in the first `ticks` steps from a state (R148). -/
def completedCycles : (ticks : Nat) → State → Nat
  | 0, _ => 0
  | ticks + 1, s =>
    match step s with
    | .next t => (if s.waiting then 0 else 1) + completedCycles ticks t
    | .fault _ => 0
    | .refused _ => 0

end Sys2Proof.Machine
end

