-- ==== Sys2Proof/Safety.lean ====
section
/-! DEFINITION. The vocabulary of claims: what the rules of spec/ say of raw words, where an instruction may write,
what every state of a run satisfies, and how a run ends. -/

namespace Sys2Proof.Machine

/-! Raw operand words, as the rules of 40_address_normalizer put them. -/

/-- A raw operand word that is not Invalid: 0..32775 (R80). -/
abbrev Usable (w : Word) : Prop := w.toNat ≤ 32775

/-- A raw word that selects a register: 32768..32775 (R80). -/
abbrev Selects (w : Word) : Prop := 32768 ≤ w.toNat ∧ w.toNat ≤ 32775

/-- The effective value of a usable raw word in a read position (R81). -/
def valueOf (s : State) (w : Word) : Word :=
  if h : Selects w then s.regs[w.toNat - 32768]'(by omega) else w

/-- The state after `v` is written to the target a usable raw word selects (R83). -/
def stored (s : State) (w : Word) (v : Word) : State :=
  if h : Selects w then { s with regs := s.regs.set (w.toNat - 32768) v (by omega) }
  else { s with mem := s.mem.write w.toNat v }

/-- What a usable raw word in a write-target position names holds: a register's or a Memory Bank cell's content. -/
def contentOf (s : State) (w : Word) : Word :=
  if h : Selects w then s.regs[w.toNat - 32768]'(by omega) else s.memRead w.toNat

/-- The Program Counter `n` words further on, as a plain integer sum (10_state R29, R30). -/
def pcPlus (s : State) (n : Nat) : Word := BitVec.ofNat 16 (s.pc.toNat + n)

/-- An instruction of `n` words at pc lies inside the Memory Bank: what the fetch has established before any line of
an instruction's rule runs (46_execution_loop R146 step 3). -/
abbrev Fits (s : State) (n : Nat) : Prop := s.pc.toNat + n ≤ 32768

/-! Where an instruction may write. -/

/-- The Memory Bank cell an operand names in a write-target position (R83). -/
def cellOf : Operand → Option Nat
  | .lit w => some w.toNat
  | .reg _ => none
  | .invalid _ => none

/-- The register an operand names in a write-target position (R83). -/
def registerOf : Operand → Option (Fin 8)
  | .lit _ => none
  | .reg i => some i
  | .invalid _ => none

/-- The D operand of an instruction, `set`'s register-only one included (R84). -/
def destination : Instr → Option Operand
  | .set a _ => some a
  | .pop a => some a
  | .eq a _ _ => some a
  | .gt a _ _ => some a
  | .add a _ _ => some a
  | .mult a _ _ => some a
  | .mod a _ _ => some a
  | .and a _ _ => some a
  | .or a _ _ => some a
  | .not a _ => some a
  | .rmem a _ => some a
  | .inp a => some a
  | .halt | .push _ | .jmp _ | .jt _ _ | .jf _ _ | .wmem _ _ | .call _ | .ret | .out _ | .noop => none

/-- The Memory Bank cell an instruction may store to: a literal destination's, or for `wmem` the one its first
operand's value addresses (20_memory R45). `set` stores to none. -/
def storeAddress (i : Instr) (s : State) : Option Nat :=
  match i with
  | .set _ _ => none
  | .wmem a _ => (s.rdOp a).toOption.map BitVec.toNat
  | i => (destination i).bind cellOf

/-- The register an instruction may write (10_state R24). -/
def writtenRegister (i : Instr) : Option (Fin 8) := (destination i).bind registerOf

/-! What holds of every state of a run. -/

/-- The invariant: the Memory Bank is canonical and pc is 0..32768 (10_state R26, R30). -/
structure State.Inv (s : State) : Prop where
  memWf : s.mem.wf = true
  pcRange : s.pc.toNat ≤ 32768

/-! How a run ends (46_execution_loop R156). -/

/-- The run has ended normally. -/
abbrev State.EndedNormally (s : State) : Prop := s.status = .halted

/-- The run has ended abnormally. -/
abbrev State.EndedAbnormally (s : State) : Prop := ∃ k, s.status = .failed k

end Sys2Proof.Machine
end

