-- ==== Sys2Proof/Certificates/Slice0/Obligations.lean ====
section
/-! DEFINITION. The statements for the provers, from the numbered rules of spec/. Raw operand words are written as in
the rules: `.ofWord a` is the operand of the raw word `a`, `Usable a` says that it is not Invalid. An opcode number stands as
`opcodeNumber`, since OPCODE_MAP is open (R65, 92_eei_decisions D1, log entry 1); SpecWordsDecode states the numbers. A
behaviour the spec marks as a decision of its own is named in its statement (D<n> of 92_eei_decisions, log entry 11
where no other is named). -/

open Sys2Proof Sys2Proof.Machine

/-! ## Encoding and decoding -/

/-- 30_encoding section 5: the words of its seven examples decode to the instructions it names, one at least for each
length; and the opcode numbers are the spec's default OPCODE_MAP (section 2, D1, log entry 1: not the source's). -/
def Obligations.SpecWordsDecode : Prop :=
  [Opcode.halt, .set, .push, .pop, .eq, .gt, .jmp, .jt, .jf, .add, .mult, .mod, .and, .or, .not, .rmem, .wmem, .call,
    .ret, .out, .inp, .noop].map opcodeNumber =
    [0, 1, 2, 3, 4, 5, 6, 7, 8, 9, 10, 11, 12, 13, 14, 15, 16, 17, 18, 19, 20, 21] ∧
  decode [0] = .ok (.halt, []) ∧
  decode [1, 32768, 65] = .ok (.set (.reg 0) (.lit 65), []) ∧
  decode [9, 32769, 32769, 32768] = .ok (.add (.reg 1) (.reg 1) (.reg 0), []) ∧
  decode [7, 32768, 6] = .ok (.jt (.reg 0) (.lit 6), []) ∧
  decode [16, 20, 32768] = .ok (.wmem (.lit 20) (.reg 0), []) ∧
  decode [19, 10] = .ok (.out (.lit 10), []) ∧
  decode [21] = .ok (.noop, [])

/-- 30_encoding sections 1 and 2: decoding the words of any well-formed instruction gives it back, and leaves whatever
words follow. -/
def Obligations.DecodeEncodeRoundTrip : Prop :=
  ∀ (i : Instr) (rest : List Word), i.wf = true → decode (encode i ++ rest) = .ok (i, rest)

/-- 30_encoding section 2: what decoding answers is well-formed and its words are exactly the words read, so each
sequence of words has at most one meaning. -/
def Obligations.DecodedWordsAreTheEncoding : Prop :=
  ∀ (ws rest : List Word) (i : Instr), decode ws = .ok (i, rest) → i.wf = true ∧ encode i ++ rest = ws

/-! ## The address normalizer -/

/-- R81: RdOp of a raw word. -/
def Obligations.ReadNormalization : Prop :=
  ∀ (s : State) (w : Word),
    (w.toNat ≤ 32767 → s.rdOp (.ofWord w) = .ok w) ∧
    (∀ i : Fin 8, w.toNat = 32768 + i.val → s.rdOp (.ofWord w) = .ok s.regs[i]) ∧
    (32776 ≤ w.toNat → s.rdOp (.ofWord w) = .error .addressFault)

/-- R83: ChkDst and WrOp of a raw word. -/
def Obligations.WriteTargetResolution : Prop :=
  ∀ (s : State) (w v : Word),
    (w.toNat ≤ 32767 → chkDst (.ofWord w) = .ok () ∧
      ∃ m, s.wrOp (.ofWord w) v = { s with mem := m } ∧
        ∀ x, Memory.read m x = if x = w.toNat then v else s.memRead x) ∧
    (∀ i : Fin 8, w.toNat = 32768 + i.val → chkDst (.ofWord w) = .ok () ∧
      ∃ r, s.wrOp (.ofWord w) v = { s with regs := r } ∧
        ∀ j : Fin 8, r[j] = if j = i then v else s.regs[j]) ∧
    (32776 ≤ w.toNat → chkDst (.ofWord w) = .error .addressFault)

/-! ## Data movement -/

/-- 41_data_movement, `set a b`; a destination that is not a register selector raises AddressFault (D5). -/
def Obligations.SetWritesRegister : Prop :=
  ∀ (s : State) (a b : Word), Fits s 3 →
    encode (.set (.ofWord a) (.ofWord b)) = [opcodeNumber .set, a, b] ∧
    (¬ (Selects a ∧ Usable b) →
      exec (.set (.ofWord a) (.ofWord b)) s = .next { s with status := .failed .addressFault }) ∧
    (∀ i : Fin 8, a.toNat = 32768 + i.val → Usable b →
      exec (.set (.ofWord a) (.ofWord b)) s =
        .next { s with regs := s.regs.set i (valueOf s b), pc := pcPlus s 3 })

/-- R91: `push a`. -/
def Obligations.PushAppendsToStack : Prop :=
  ∀ (s : State) (a : Word), Fits s 2 →
    encode (.push (.ofWord a)) = [opcodeNumber .push, a] ∧
    (¬ Usable a → exec (.push (.ofWord a)) s = .next { s with status := .failed .addressFault }) ∧
    (Usable a → exec (.push (.ofWord a)) s =
      .next { s with stack := valueOf s a :: s.stack, pc := pcPlus s 2 })

/-- R92: `pop a`; the operand's class is checked before the stack. -/
def Obligations.PopTakesTop : Prop :=
  ∀ (s : State) (a : Word), Fits s 2 →
    encode (.pop (.ofWord a)) = [opcodeNumber .pop, a] ∧
    (¬ Usable a → exec (.pop (.ofWord a)) s = .next { s with status := .failed .addressFault }) ∧
    (Usable a → s.stack = [] → exec (.pop (.ofWord a)) s = .next { s with status := .failed .stackUnderflow }) ∧
    (∀ v r, Usable a → s.stack = v :: r →
      exec (.pop (.ofWord a)) s = .next { stored s a v with stack := r, pc := pcPlus s 2 })

/-- 41_data_movement, `rmem a b`; the address read is the value of `b`; that one above 32767 faults is D7. -/
def Obligations.RmemReadsCell : Prop :=
  ∀ (s : State) (a b : Word), Fits s 3 →
    encode (.rmem (.ofWord a) (.ofWord b)) = [opcodeNumber .rmem, a, b] ∧
    (¬ (Usable a ∧ Usable b) ∨ 32767 < (valueOf s b).toNat →
      exec (.rmem (.ofWord a) (.ofWord b)) s = .next { s with status := .failed .addressFault }) ∧
    (Usable a → Usable b → (valueOf s b).toNat ≤ 32767 →
      exec (.rmem (.ofWord a) (.ofWord b)) s =
        .next { stored s a (s.memRead (valueOf s b).toNat) with pc := pcPlus s 3 })

/-- 41_data_movement, `wmem a b`; the cell written is the one the value of `a` addresses (D6), and no register is
written; an address above 32767 faults (D7). -/
def Obligations.WmemWritesCell : Prop :=
  ∀ (s : State) (a b : Word), Fits s 3 →
    encode (.wmem (.ofWord a) (.ofWord b)) = [opcodeNumber .wmem, a, b] ∧
    (¬ (Usable a ∧ Usable b) ∨ 32767 < (valueOf s a).toNat →
      exec (.wmem (.ofWord a) (.ofWord b)) s = .next { s with status := .failed .addressFault }) ∧
    (Usable a → Usable b → (valueOf s a).toNat ≤ 32767 →
      exec (.wmem (.ofWord a) (.ofWord b)) s =
        .next { s with mem := s.mem.write (valueOf s a).toNat (valueOf s b), pc := pcPlus s 3 })

/-! ## Arithmetic, logic, comparison -/

/-- The common shape of a binary ALU instruction's rule (R100): its words, AddressFault on an Invalid operand word,
and else the result, a function of the two source values alone, written to the destination and pc advanced by 4. -/
def Sys2Proof.Claims.BinaryRule (mk : Operand → Operand → Operand → Instr) (op : Opcode) (f : Nat → Nat → Nat) :
    Prop :=
  ∀ (s : State) (a b c : Word), Fits s 4 →
    encode (mk (.ofWord a) (.ofWord b) (.ofWord c)) = [opcodeNumber op, a, b, c] ∧
    (¬ (Usable a ∧ Usable b ∧ Usable c) →
      exec (mk (.ofWord a) (.ofWord b) (.ofWord c)) s = .next { s with status := .failed .addressFault }) ∧
    (Usable a → Usable b → Usable c →
      exec (mk (.ofWord a) (.ofWord b) (.ofWord c)) s =
        .next { stored s a (BitVec.ofNat 16 (f (valueOf s b).toNat (valueOf s c).toNat)) with pc := pcPlus s 4 })

/-- R101: `add a b c`. -/
def Obligations.AddSumsModulo32768 : Prop := Sys2Proof.Claims.BinaryRule .add .add fun b c => (b + c) % 32768

/-- R102: `mult a b c`. -/
def Obligations.MultMultipliesModulo32768 : Prop := Sys2Proof.Claims.BinaryRule .mult .mult fun b c => b * c % 32768

/-- 42_arithmetic_logic, `and a b c`, the mask to 15 bits as a remainder; for source values above 32767 it is D13, log entry 10. -/
def Obligations.AndIsBitwise : Prop := Sys2Proof.Claims.BinaryRule .and .and fun b c => (b &&& c) % 32768

/-- 42_arithmetic_logic, `or a b c`, the mask to 15 bits as a remainder; for source values above 32767 it is D13, log entry 10. -/
def Obligations.OrIsBitwise : Prop := Sys2Proof.Claims.BinaryRule .or .or fun b c => (b ||| c) % 32768

/-- 42_arithmetic_logic, `eq a b c`: whole Words are compared (D14 for values above 32767, log entry 10). -/
def Obligations.EqComparesWords : Prop := Sys2Proof.Claims.BinaryRule .eq .eq fun b c => if b = c then 1 else 0

/-- 42_arithmetic_logic, `gt a b c`: whole Words are compared (D14 for values above 32767, log entry 10). -/
def Obligations.GtComparesUnsigned : Prop := Sys2Proof.Claims.BinaryRule .gt .gt fun b c => if b > c then 1 else 0

/-- 42_arithmetic_logic, `mod a b c`; the operand classes are checked before the divisor (D11), and on either fault
nothing is written; the reduction to 15 bits is D13 (log entry 10). -/
def Obligations.ModGivesRemainder : Prop :=
  ∀ (s : State) (a b c : Word), Fits s 4 →
    encode (.mod (.ofWord a) (.ofWord b) (.ofWord c)) = [opcodeNumber .mod, a, b, c] ∧
    (¬ (Usable a ∧ Usable b ∧ Usable c) →
      exec (.mod (.ofWord a) (.ofWord b) (.ofWord c)) s = .next { s with status := .failed .addressFault }) ∧
    (Usable a → Usable b → Usable c → valueOf s c = 0 →
      exec (.mod (.ofWord a) (.ofWord b) (.ofWord c)) s = .next { s with status := .failed .arithmeticFault }) ∧
    (Usable a → Usable b → Usable c → valueOf s c ≠ 0 →
      exec (.mod (.ofWord a) (.ofWord b) (.ofWord c)) s =
        .next { stored s a (BitVec.ofNat 16 ((valueOf s b).toNat % (valueOf s c).toNat % 32768)) with
          pc := pcPlus s 4 })

/-- 42_arithmetic_logic, `not a b`, the result as the rule also gives it: 32767 less the value modulo 32768 (D13 for
values above 32767, log entry 10). -/
def Obligations.NotComplements15Bits : Prop :=
  ∀ (s : State) (a b : Word), Fits s 3 →
    encode (.not (.ofWord a) (.ofWord b)) = [opcodeNumber .not, a, b] ∧
    (¬ (Usable a ∧ Usable b) →
      exec (.not (.ofWord a) (.ofWord b)) s = .next { s with status := .failed .addressFault }) ∧
    (Usable a → Usable b →
      exec (.not (.ofWord a) (.ofWord b)) s =
        .next { stored s a (BitVec.ofNat 16 (32767 - (valueOf s b).toNat % 32768)) with pc := pcPlus s 3 })

/-- 42_arithmetic_logic section 2 and 92_eei_decisions D13: no ALU instruction changes a register or a cell to a value
above 32767, whatever its sources hold. -/
def Obligations.AluResultsAreClean : Prop :=
  ∀ (i : Instr) (s t : State),
    i.opcode ∈ [Opcode.add, .mult, .mod, .and, .or, .not, .eq, .gt] → exec i s = .next t →
    (∀ j : Fin 8, t.regs[j] = s.regs[j] ∨ t.regs[j].toNat ≤ 32767) ∧
    (∀ x, t.memRead x = s.memRead x ∨ (t.memRead x).toNat ≤ 32767)

/-! ## Control flow -/

/-- 43_control_flow, `jmp a`; a target above 32767 faults here (D8). -/
def Obligations.JmpSetsPc : Prop :=
  ∀ (s : State) (a : Word),
    encode (.jmp (.ofWord a)) = [opcodeNumber .jmp, a] ∧
    (¬ Usable a ∨ 32767 < (valueOf s a).toNat →
      exec (.jmp (.ofWord a)) s = .next { s with status := .failed .addressFault }) ∧
    (Usable a → (valueOf s a).toNat ≤ 32767 → exec (.jmp (.ofWord a)) s = .next { s with pc := valueOf s a })

/-- The common shape of the rules of `jt` and `jf` (R121, R122): both operand words are class-checked, the target's
range only when the branch is taken (D8, D12). -/
def Sys2Proof.Claims.BranchRule (mk : Operand → Operand → Instr) (op : Opcode) (taken : Word → Prop) : Prop :=
  ∀ (s : State) (a b : Word), Fits s 3 →
    encode (mk (.ofWord a) (.ofWord b)) = [opcodeNumber op, a, b] ∧
    (¬ (Usable a ∧ Usable b) →
      exec (mk (.ofWord a) (.ofWord b)) s = .next { s with status := .failed .addressFault }) ∧
    (Usable a → Usable b → taken (valueOf s a) → 32767 < (valueOf s b).toNat →
      exec (mk (.ofWord a) (.ofWord b)) s = .next { s with status := .failed .addressFault }) ∧
    (Usable a → Usable b → taken (valueOf s a) → (valueOf s b).toNat ≤ 32767 →
      exec (mk (.ofWord a) (.ofWord b)) s = .next { s with pc := valueOf s b }) ∧
    (Usable a → Usable b → ¬ taken (valueOf s a) →
      exec (mk (.ofWord a) (.ofWord b)) s = .next { s with pc := pcPlus s 3 })

/-- 43_control_flow, `jt a b` branches when the value of `a` is not 0. -/
def Obligations.JtBranchesOnNonzero : Prop := Sys2Proof.Claims.BranchRule .jt .jt fun v => v ≠ 0

/-- 43_control_flow, `jf a b` branches when the value of `a` is 0. -/
def Obligations.JfBranchesOnZero : Prop := Sys2Proof.Claims.BranchRule .jf .jf fun v => v = 0

/-- 43_control_flow, `call a`; the return address is the plain sum pc + 2; a target above 32767 faults here (D8). -/
def Obligations.CallPushesReturnAddress : Prop :=
  ∀ (s : State) (a : Word), Fits s 2 →
    encode (.call (.ofWord a)) = [opcodeNumber .call, a] ∧
    (¬ Usable a ∨ 32767 < (valueOf s a).toNat →
      exec (.call (.ofWord a)) s = .next { s with status := .failed .addressFault }) ∧
    (Usable a → (valueOf s a).toNat ≤ 32767 →
      exec (.call (.ofWord a)) s = .next { s with stack := pcPlus s 2 :: s.stack, pc := valueOf s a })

/-- 43_control_flow, `ret`; on either fault the stack and pc are unchanged (D8, D10). -/
def Obligations.RetPopsIntoPc : Prop :=
  encode .ret = [opcodeNumber .ret] ∧
  ∀ s : State,
    (s.stack = [] → exec .ret s = .next { s with status := .failed .stackUnderflow }) ∧
    (∀ t r, s.stack = t :: r → 32767 < t.toNat → exec .ret s = .next { s with status := .failed .addressFault }) ∧
    (∀ t r, s.stack = t :: r → t.toNat ≤ 32767 → exec .ret s = .next { s with stack := r, pc := t })

/-- 43_control_flow section of `halt`: STATUS alone changes. That pc stays is the spec's decision D22
(log entry 11). -/
def Obligations.HaltChangesStatusOnly : Prop :=
  encode .halt = [opcodeNumber .halt] ∧ ∀ s : State, exec .halt s = .next { s with status := .halted }

/-- The source's §8, 95_test_vectors S8 and V-CF21: after `call`, `ret` resumes at the word after the `call` with the
stack as it was; for a `call` at 32766 that address is 32768 and the `ret` raises AddressFault. -/
def Obligations.RetResumesAfterCall : Prop :=
  ∀ (s : State) (a : Word), Fits s 2 → Usable a → (valueOf s a).toNat ≤ 32767 →
    ∃ t, exec (.call (.ofWord a)) s = .next t ∧
      (s.pc.toNat + 2 ≤ 32767 → exec .ret t = .next { s with pc := pcPlus s 2 }) ∧
      (s.pc.toNat + 2 = 32768 → exec .ret t = .next { t with status := .failed .addressFault })

/-! ## Input, output, noop -/

/-- 44_io section 1: `out a` appends the value's whole Word to OUT (the spec's decision D17, log entry 12). -/
def Obligations.OutAppendsWord : Prop :=
  ∀ (s : State) (a : Word), Fits s 2 →
    encode (.out (.ofWord a)) = [opcodeNumber .out, a] ∧
    (¬ Usable a → exec (.out (.ofWord a)) s = .next { s with status := .failed .addressFault }) ∧
    (Usable a → exec (.out (.ofWord a)) s = .next { s with out := s.out ++ [valueOf s a], pc := pcPlus s 2 })

/-- 44_io section 1: `in a` with a queue that is not empty; an Invalid destination faults whatever the queue holds, so
without waiting and without consuming input (the spec's decision D21, log entry 11). -/
def Obligations.InTakesOldestCode : Prop :=
  ∀ (s : State) (a : Word), Fits s 2 →
    encode (.inp (.ofWord a)) = [opcodeNumber .inp, a] ∧
    (¬ Usable a → exec (.inp (.ofWord a)) s = .next { s with status := .failed .addressFault }) ∧
    (∀ ch r, Usable a → s.inq = ch :: r →
      exec (.inp (.ofWord a)) s = .next { stored s a ch with inq := r, pc := pcPlus s 2 })

/-- 44_io section 2: `in` on an empty queue waits: pc stays on the `in`, STATUS stays, and only the host's refill, if
it comes, changes INQ: a line of any content and NEWLINE (log entries 3, 4 and 5: the model's free value and form). -/
def Obligations.InWaitsOnEmptyQueue : Prop :=
  ∀ (s : State) (a : Word), Usable a → s.inq = [] →
    ∃ q, exec (.inp (.ofWord a)) s = .next { s with inq := q, hostTurns := s.hostTurns + 1 } ∧
      (q = [] ∨ ∃ line, q = line ++ [10])

/-- 44_io section 2: after a refill with any line, the waiting `in` completes as if the queue had never been empty
(V-IO6, V-IO8; NEWLINE is the spec's default 10, log entry 5). -/
def Obligations.InCompletesAfterRefill : Prop :=
  ∀ (s : State) (a ch : Word) (line : List Word), Fits s 2 → Usable a → s.inq = [] →
    exec (.inp (.ofWord a)) (s.refill (ch :: line)) =
      .next { stored s a ch with inq := line ++ [10], pc := pcPlus s 2 } ∧
    exec (.inp (.ofWord a)) (s.refill []) = .next { stored s a 10 with inq := [], pc := pcPlus s 2 }

/-- R140: `noop`. -/
def Obligations.NoopAdvancesByOne : Prop :=
  encode .noop = [opcodeNumber .noop] ∧ ∀ s : State, Fits s 1 → exec .noop s = .next { s with pc := pcPlus s 1 }

/-! ## Frames: what an instruction leaves unchanged -/

/-- All 22 instructions: every Memory Bank cell but the one the instruction stores to reads as before. -/
def Obligations.MemoryFrame : Prop :=
  ∀ (i : Instr) (s t : State), exec i s = .next t →
    ∀ x, storeAddress i s ≠ some x → t.memRead x = s.memRead x

/-- All 22 instructions: every register but the destination is unchanged; there is no other register an instruction
updates. -/
def Obligations.RegisterFrame : Prop :=
  ∀ (i : Instr) (s t : State), exec i s = .next t →
    ∀ j : Fin 8, writtenRegister i ≠ some j → t.regs[j] = s.regs[j]

/-- All 22 instructions: the Call Stack is unchanged but for one entry more on top by `push` and `call` and one fewer
by `pop` and `ret`. -/
def Obligations.StackFrame : Prop :=
  ∀ (i : Instr) (s t : State), exec i s = .next t →
    t.stack = s.stack ∨
    (i.opcode ∈ [Opcode.push, .call] ∧ ∃ v, t.stack = v :: s.stack) ∨
    (i.opcode ∈ [Opcode.pop, .ret] ∧ ∃ v, s.stack = v :: t.stack)

/-- All 22 instructions: OUT changes by `out` alone, which appends one element; INQ (and the model's own counter of the
host's turns) by `in` alone, which removes the oldest element or, when there is none, lets the host refill. -/
def Obligations.StreamFrame : Prop :=
  ∀ (i : Instr) (s t : State), exec i s = .next t →
    (t.out = s.out ∨ i.opcode = .out ∧ ∃ v, t.out = s.out ++ [v]) ∧
    (t.inq = s.inq ∧ t.hostTurns = s.hostTurns ∨
      i.opcode = .inp ∧ ((∃ ch, s.inq = ch :: t.inq) ∨ s.inq = []))

/-- All 22 instructions: STATUS is unchanged unless the instruction is `halt` or takes a fatal condition, and in both
cases nothing else changes. -/
def Obligations.StatusFrame : Prop :=
  ∀ (i : Instr) (s t : State), exec i s = .next t →
    t.status = s.status ∨
    (i = .halt ∧ t = { s with status := .halted }) ∨
    ∃ k, t = { s with status := .failed k }

/-! ## The cycle and the fatal conditions -/

/-- 46_execution_loop section 1: when the words at pc decode to an instruction, the cycle is exactly that
instruction. -/
def Obligations.StepRunsDecodedInstruction : Prop :=
  ∀ (s : State) (i : Instr) (rest : List Word), s.status = .running → decode s.fetchWords = .ok (i, rest) →
    step s = exec i s

/-- 46_execution_loop section 1, 30_encoding section 1: when the cells from pc on hold the words of a well-formed
instruction that lies inside the Memory Bank, the cycle is exactly that instruction. -/
def Obligations.StepRunsEncodedInstruction : Prop :=
  ∀ (s : State) (i : Instr), s.status = .running → i.wf = true → Fits s i.length →
    (∀ (k : Nat) (w : Word), (encode i)[k]? = some w → s.memRead (s.pc.toNat + k) = w) → step s = exec i s

/-- 46_execution_loop section 1 steps 1 and 3 and 92_eei_decisions D9: an opcode fetch beyond the Memory Bank, and an
operand word beyond it, raise AddressFault and nothing wraps. -/
def Obligations.FetchBeyondMemoryFaults : Prop :=
  ∀ s : State, s.status = .running →
    (32768 ≤ s.pc.toNat → step s = .next { s with status := .failed .addressFault }) ∧
    (∀ i : Instr, s.pc.toNat ≤ 32767 → opcodeOfWord (s.memRead s.pc.toNat) = some i.opcode → ¬ Fits s i.length →
      step s = .next { s with status := .failed .addressFault })

/-- R161: StackUnderflow, code 1, is raised by `pop` and `ret` on an empty Call Stack and by nothing else; no other
state changes. (`pop` checks its operand's class first, R92.) -/
def Obligations.StackUnderflowExactly : Prop :=
  FailKind.stackUnderflow.code = 1 ∧
  ∀ s : State, s.status = .running →
    ((∃ t, step s = .next t ∧ t.status = .failed .stackUnderflow) ↔
      s.stack = [] ∧ (s.fetchInstr = .ok .ret ∨ ∃ a, s.fetchInstr = .ok (.pop a) ∧ chkDst a = .ok ())) ∧
    (∀ t, step s = .next t → t.status = .failed .stackUnderflow → t = { s with status := .failed .stackUnderflow })

/-- R162: ArithmeticFault, code 2, is raised by `mod` with a divisor of value 0 and by nothing else; the destination is
not written. (`mod` checks its operands' classes first, R103.) -/
def Obligations.ArithmeticFaultExactly : Prop :=
  FailKind.arithmeticFault.code = 2 ∧
  ∀ s : State, s.status = .running →
    ((∃ t, step s = .next t ∧ t.status = .failed .arithmeticFault) ↔
      ∃ a b c v, s.fetchInstr = .ok (.mod a b c) ∧ chkDst a = .ok () ∧ s.rdOp b = .ok v ∧ s.rdOp c = .ok 0) ∧
    (∀ t, step s = .next t → t.status = .failed .arithmeticFault → t = { s with status := .failed .arithmeticFault })

/-- R163: DecodeFault, code 3, is raised when the Word at pc is none of the 22 opcode numbers and by nothing else; no
other state changes. -/
def Obligations.DecodeFaultExactly : Prop :=
  FailKind.decodeFault.code = 3 ∧
  ∀ s : State, s.status = .running →
    ((∃ t, step s = .next t ∧ t.status = .failed .decodeFault) ↔
      s.pc.toNat ≤ 32767 ∧ ∀ op, opcodeNumber op ≠ s.memRead s.pc.toNat) ∧
    (∀ t, step s = .next t → t.status = .failed .decodeFault → t = { s with status := .failed .decodeFault })

/-- The sub-causes of AddressFault as 60_exceptions section 1 lists them, in its order. -/
def Sys2Proof.Claims.AddressFaultCause (s : State) : Prop :=
  32768 ≤ s.pc.toNat ∨
  (s.pc.toNat ≤ 32767 ∧ ∃ i : Instr, opcodeOfWord (s.memRead s.pc.toNat) = some i.opcode ∧ ¬ Fits s i.length) ∨
  ∃ i, s.fetchInstr = .ok i ∧
    ((∃ w, Operand.invalid w ∈ i.operands) ∨
     (∃ v b, i = .set (.lit v) b) ∨
     (∃ a b e, (i = .rmem a b ∧ s.rdOp b = .ok e ∨ i = .wmem a b ∧ s.rdOp a = .ok e) ∧ 32767 < e.toNat) ∨
     (∃ t : Word, 32767 < t.toNat ∧
       ((∃ a, (i = .jmp a ∨ i = .call a) ∧ s.rdOp a = .ok t) ∨
        (∃ a b v, (i = .jt a b ∧ v ≠ 0 ∨ i = .jf a b ∧ v = 0) ∧ s.rdOp a = .ok v ∧ s.rdOp b = .ok t) ∨
        (i = .ret ∧ s.stack.head? = some t))))

/-- 60_exceptions section 1: a cycle ends in AddressFault exactly when one of the six listed sub-causes holds, and then
nothing but STATUS changes. Five of the six are the spec's decisions D5, D7, D8 and D9 (log entry 11). -/
def Obligations.AddressFaultExactly : Prop :=
  FailKind.addressFault.code = 4 ∧
  ∀ s : State, s.status = .running →
    (step s = .next { s with status := .failed .addressFault } ↔ Sys2Proof.Claims.AddressFaultCause s)

/-- 60_exceptions section 2 and 92_eei_decisions D10: every fatal condition is precise: the state is the one before
the faulting instruction, plus the STATUS. -/
def Obligations.FatalConditionsArePrecise : Prop :=
  ∀ (s t : State) (k : FailKind), step s = .next t → t.status = .failed k → t = { s with status := .failed k }

/-- R150, R151: in Halted and in Failed no cycle runs, and a `run` of any budget returns at once with nothing
changed. -/
def Obligations.TerminalStatesArePermanent : Prop :=
  ∀ s : State, s.EndedNormally ∨ s.EndedAbnormally →
    (∀ t, step s ≠ .next t) ∧ ∀ ticks budget, run ticks budget s = some s

/-- 70_reset section 5: from every Running state the core has a next state (when it waits in `in`, the host's turn). -/
def Obligations.RunningStateHasNext : Prop :=
  ∀ s : State, s.status = .running → ∃ t, step s = .next t

/-! ## Invariants and whole-machine rules -/

/-- 10_state sections 3 and 4: every step keeps the Memory Bank canonical and pc in 0..32768. -/
def Obligations.StepKeepsInvariant : Prop :=
  ∀ s t : State, s.Inv → step s = .next t → t.Inv

/-- The state after reset meets the invariant. -/
def Obligations.ResetMeetsInvariant : Prop := State.reset.Inv

/-- Every state that RESET(IMAGE, PRESEED) creates meets the invariant. -/
def Obligations.BootMeetsInvariant : Prop :=
  ∀ (image preseed : List Word) (s : State), State.boot image preseed = some s → s.Inv

/-- 10_state section 5: OUT is append-only: along any number of steps from any state it only grows at its end. -/
def Obligations.OutputOnlyGrows : Prop :=
  ∀ (k : Nat) (s t : State), core.run k s = .next t → s.out <+: t.out

/-- 10_state section 5: no instruction reads OUT: a step from the same state with other output before it does the same
and keeps that output before it. -/
def Obligations.OutputIsNeverRead : Prop :=
  ∀ (s t : State) (o : List Word), step s = .next t →
    step { s with out := o ++ s.out } = .next { t with out := o ++ t.out }

/-- 41_data_movement R95's section and the source's §8: a Word written by `wmem` and read back by `rmem` through the
same address operand arrives at any destination exactly, all 16 bits. -/
def Obligations.WmemRmemRoundTrip : Prop :=
  ∀ (s : State) (a v d : Word), Usable a → Usable v → Usable d → (valueOf s a).toNat ≤ 32767 →
    ∃ t u, exec (.wmem (.ofWord a) (.ofWord v)) s = .next t ∧ exec (.rmem (.ofWord d) (.ofWord a)) t = .next u ∧
      contentOf u d = valueOf s v

/-- 20_memory section 6: a Word that `wmem` stores to the cell after itself is the opcode word the very next cycle
fetches. -/
def Obligations.StoreIsSeenByNextFetch : Prop :=
  ∀ (s : State) (a v : Word), Usable a → Usable v → s.pc.toNat + 3 ≤ 32767 → (valueOf s a).toNat = s.pc.toNat + 3 →
    ∃ t, exec (.wmem (.ofWord a) (.ofWord v)) s = .next t ∧ t.fetchWords.head? = some (valueOf s v)

/-! ## Reset, the run loop, the host -/

/-- 10_state section 3: the Memory Bank after reset with an image of at most 32768 Words. -/
def Obligations.BootLoadsImage : Prop :=
  ∀ image preseed : List Word, image.length ≤ 32768 →
    ∃ s, State.boot image preseed = some s ∧
      ∀ x, x ≤ 32767 → s.memRead x = if h : x < image.length then image[x] else 0

/-- 70_reset section 1: the rest of the state after reset; the zeros of the registers and pc and the empty stack and
OUT are the spec's decisions D2, D3 and D4 (log entry 2). A longer image is refused (D25, log entry 11). -/
def Obligations.BootSetsTheRest : Prop :=
  ∀ image preseed : List Word,
    (∀ s, State.boot image preseed = some s →
      (∀ j : Fin 8, s.regs[j] = 0) ∧ s.stack = [] ∧ s.pc = 0 ∧ s.out = [] ∧ s.inq = preseed ∧ s.status = .running) ∧
    (32768 < image.length → State.boot image preseed = none)

/-- 70_reset section 1, V-LP11: the reset state is the one with the empty image and no pre-seeded input, and its first
cycle is a `halt` at address 0 (the opcode map and pc's reset value are the spec's D1 and D2, log entries 1 and 2). -/
def Obligations.EmptyImageHaltsAtOnce : Prop :=
  State.boot [] [] = some State.reset ∧ step State.reset = .next { State.reset with status := .halted }

/-- 20_memory section 2: the words of an image given as bytes, low byte first; an odd number of bytes is refused (the
spec's decision D25, log entry 11). -/
def Obligations.ImageBytesAreLittleEndian : Prop :=
  ∀ bs : List Byte,
    (bs.length % 2 = 1 → wordsOfBytes bs = none) ∧
    (bs.length % 2 = 0 → ∃ ws, wordsOfBytes bs = some ws ∧ 2 * ws.length = bs.length ∧
      ∀ (i : Nat) (w : Word) (lo hi : Byte), ws[i]? = some w → bs[2 * i]? = some lo → bs[2 * i + 1]? = some hi →
        w.toNat = lo.toNat + 256 * hi.toNat)

/-- 10_state section 6: STATUS as the host reads it, the `state` field in bits 1:0 and the `kind` field in bits 4:2 (the
numbers are the spec's decision D24, log entry 11). -/
def Obligations.StatusFields : Prop :=
  Status.running.toWord = 0 ∧ Status.halted.toWord = 1 ∧
  (Status.failed .stackUnderflow).toWord = 2 + 4 * 1 ∧ (Status.failed .arithmeticFault).toWord = 2 + 4 * 2 ∧
  (Status.failed .decodeFault).toWord = 2 + 4 * 3 ∧ (Status.failed .addressFault).toWord = 2 + 4 * 4

/-- 46_execution_loop section 2 and 92_eei_decisions D23: a `run` that returned may be continued: `run(n)` and then
`run(m)` leave what `run(n + m)` leaves. The counts `j` and `k` of model steps are the model's form of `run` (log
entry 14). -/
def Obligations.RunContinues : Prop :=
  ∀ (j k n m : Nat) (s t u : State), run j n s = some t → run k m t = some u → run (j + k) (n + m) s = some u

/-- 46_execution_loop section 2: `run(0)` changes nothing, and a `run` that returns with STATUS still Running has
completed exactly as many cycles as its budget, a waiting `in` counting once (D23; the model's form, log entry 14). -/
def Obligations.RunCompletesItsBudget : Prop :=
  (∀ (ticks : Nat) (s : State), run ticks 0 s = some s) ∧
  ∀ (ticks n : Nat) (s t : State), run ticks n s = some t → t.status = .running →
    ∃ k, k ≤ ticks ∧ core.run k s = .next t ∧ completedCycles k s = n
end

