-- ==== Sys2Proof/Laws/Decode.lean ====
section
/-! SUPPORT. What the classification of operand words, the opcode map and the operand decoders can do, said once. -/

namespace Sys2Proof

/-- Everything `Operand.ofWord` can answer (40_address_normalizer R80): each word is in exactly one class. -/
theorem Operand.ofWord_cases (w : Word) :
    (w.toNat ≤ 32767 ∧ ∃ v, Operand.ofWord w = .lit v ∧ v.setWidth 16 = w ∧ v.toNat = w.toNat) ∨
    (∃ i : Fin 8, w.toNat = 32768 + i.val ∧ Operand.ofWord w = .reg i) ∨
    (32776 ≤ w.toNat ∧ Operand.ofWord w = .invalid w) := by
  unfold Operand.ofWord
  split
  · refine .inl ⟨by omega, _, rfl, BitVec.eq_of_toNat_eq ?_, ?_⟩ <;>
      simp only [BitVec.toNat_setWidth] <;> omega
  · split
    · refine .inr (.inl ⟨_, ?_, rfl⟩)
      change w.toNat = 32768 + (w.toNat - 32768) % 8
      omega
    · exact .inr (.inr ⟨by omega, rfl⟩)

/-- The class of a word keeps the word. -/
theorem Operand.toWord_ofWord (w : Word) : (Operand.ofWord w).toWord = w := by
  rcases Operand.ofWord_cases w with ⟨-, v, h, hv, -⟩ | ⟨i, hw, h⟩ | ⟨-, h⟩ <;> rw [h]
  · exact hv
  · refine BitVec.eq_of_toNat_eq ?_
    simp only [Operand.toWord, BitVec.toNat_ofNat]
    omega
  · rfl

/-- Every opcode is found under its number: no two numbers are equal (30_encoding R65). -/
theorem opcodeOfWord_opcodeNumber (op : Opcode) : opcodeOfWord (opcodeNumber op) = some op := by cases op <;> rfl

/-- A word names an opcode only as its number (30_encoding R61). -/
theorem opcodeNumber_of_opcodeOfWord {w : Word} {op : Opcode} (h : opcodeOfWord w = some op) :
    opcodeNumber op = w := by
  simpa using List.find?_some h

/-- Everything the operand decoders can answer: an instruction of that opcode, when enough words follow, and otherwise
a missing operand (30_encoding R60, R66). -/
theorem decodeOperands_cases (op : Opcode) (ws : List Word) :
    (∃ i rest, decodeOperands op ws = .ok (i, rest) ∧ i.opcode = op ∧ i.length ≤ ws.length + 1) ∨
    (decodeOperands op ws = .error .missingOperand ∧ ∀ i : Instr, i.opcode = op → ws.length + 1 < i.length) := by
  rcases ws with _ | ⟨a, _ | ⟨b, _ | ⟨c, r⟩⟩⟩ <;> cases op <;> first
    | exact .inl ⟨_, _, rfl, rfl, by simp [Instr.length, Instr.operands]⟩
    | refine .inr ⟨rfl, fun i hi => ?_⟩
      cases i <;> simp_all [Instr.opcode, Instr.length, Instr.operands]

end Sys2Proof
end

