-- ==== Sys2Proof/Laws/State.lean ====
section
/-! SUPPORT. One lemma per field per state operation, so that no proof unfolds a record update. -/

namespace Sys2Proof.Machine

variable (s : State)

/-! `State.setReg` writes `regs` alone. -/

@[simp] theorem State.setReg_mem (i : Fin 8) (v : Word) : (s.setReg i v).mem = s.mem := rfl
@[simp] theorem State.setReg_regs (i : Fin 8) (v : Word) : (s.setReg i v).regs = s.regs.set i v := rfl
@[simp] theorem State.setReg_stack (i : Fin 8) (v : Word) : (s.setReg i v).stack = s.stack := rfl
@[simp] theorem State.setReg_pc (i : Fin 8) (v : Word) : (s.setReg i v).pc = s.pc := rfl
@[simp] theorem State.setReg_out (i : Fin 8) (v : Word) : (s.setReg i v).out = s.out := rfl
@[simp] theorem State.setReg_inq (i : Fin 8) (v : Word) : (s.setReg i v).inq = s.inq := rfl
@[simp] theorem State.setReg_status (i : Fin 8) (v : Word) : (s.setReg i v).status = s.status := rfl
@[simp] theorem State.setReg_hostTurns (i : Fin 8) (v : Word) : (s.setReg i v).hostTurns = s.hostTurns := rfl

/-! `State.memWrite` writes `mem` alone. -/

@[simp] theorem State.memWrite_mem (a : Nat) (v : Word) : (s.memWrite a v).mem = s.mem.write a v := rfl
@[simp] theorem State.memWrite_regs (a : Nat) (v : Word) : (s.memWrite a v).regs = s.regs := rfl
@[simp] theorem State.memWrite_stack (a : Nat) (v : Word) : (s.memWrite a v).stack = s.stack := rfl
@[simp] theorem State.memWrite_pc (a : Nat) (v : Word) : (s.memWrite a v).pc = s.pc := rfl
@[simp] theorem State.memWrite_out (a : Nat) (v : Word) : (s.memWrite a v).out = s.out := rfl
@[simp] theorem State.memWrite_inq (a : Nat) (v : Word) : (s.memWrite a v).inq = s.inq := rfl
@[simp] theorem State.memWrite_status (a : Nat) (v : Word) : (s.memWrite a v).status = s.status := rfl
@[simp] theorem State.memWrite_hostTurns (a : Nat) (v : Word) : (s.memWrite a v).hostTurns = s.hostTurns := rfl

/-! `State.push` writes `stack` alone. -/

@[simp] theorem State.push_mem (v : Word) : (s.push v).mem = s.mem := rfl
@[simp] theorem State.push_regs (v : Word) : (s.push v).regs = s.regs := rfl
@[simp] theorem State.push_stack (v : Word) : (s.push v).stack = v :: s.stack := rfl
@[simp] theorem State.push_pc (v : Word) : (s.push v).pc = s.pc := rfl
@[simp] theorem State.push_out (v : Word) : (s.push v).out = s.out := rfl
@[simp] theorem State.push_inq (v : Word) : (s.push v).inq = s.inq := rfl
@[simp] theorem State.push_status (v : Word) : (s.push v).status = s.status := rfl
@[simp] theorem State.push_hostTurns (v : Word) : (s.push v).hostTurns = s.hostTurns := rfl

/-! `State.popped` writes `stack` alone. -/

@[simp] theorem State.popped_mem : s.popped.mem = s.mem := rfl
@[simp] theorem State.popped_regs : s.popped.regs = s.regs := rfl
@[simp] theorem State.popped_stack : s.popped.stack = s.stack.tail := rfl
@[simp] theorem State.popped_pc : s.popped.pc = s.pc := rfl
@[simp] theorem State.popped_out : s.popped.out = s.out := rfl
@[simp] theorem State.popped_inq : s.popped.inq = s.inq := rfl
@[simp] theorem State.popped_status : s.popped.status = s.status := rfl
@[simp] theorem State.popped_hostTurns : s.popped.hostTurns = s.hostTurns := rfl

/-! `State.outAppend` writes `out` alone. -/

@[simp] theorem State.outAppend_mem (v : Word) : (s.outAppend v).mem = s.mem := rfl
@[simp] theorem State.outAppend_regs (v : Word) : (s.outAppend v).regs = s.regs := rfl
@[simp] theorem State.outAppend_stack (v : Word) : (s.outAppend v).stack = s.stack := rfl
@[simp] theorem State.outAppend_pc (v : Word) : (s.outAppend v).pc = s.pc := rfl
@[simp] theorem State.outAppend_out (v : Word) : (s.outAppend v).out = s.out ++ [v] := rfl
@[simp] theorem State.outAppend_inq (v : Word) : (s.outAppend v).inq = s.inq := rfl
@[simp] theorem State.outAppend_status (v : Word) : (s.outAppend v).status = s.status := rfl
@[simp] theorem State.outAppend_hostTurns (v : Word) : (s.outAppend v).hostTurns = s.hostTurns := rfl

/-! `State.inDequeue` writes `inq` alone. -/

@[simp] theorem State.inDequeue_mem : s.inDequeue.mem = s.mem := rfl
@[simp] theorem State.inDequeue_regs : s.inDequeue.regs = s.regs := rfl
@[simp] theorem State.inDequeue_stack : s.inDequeue.stack = s.stack := rfl
@[simp] theorem State.inDequeue_pc : s.inDequeue.pc = s.pc := rfl
@[simp] theorem State.inDequeue_out : s.inDequeue.out = s.out := rfl
@[simp] theorem State.inDequeue_inq : s.inDequeue.inq = s.inq.tail := rfl
@[simp] theorem State.inDequeue_status : s.inDequeue.status = s.status := rfl
@[simp] theorem State.inDequeue_hostTurns : s.inDequeue.hostTurns = s.hostTurns := rfl

/-! `State.jump` writes `pc` alone. -/

@[simp] theorem State.jump_mem (t : Word) : (s.jump t).mem = s.mem := rfl
@[simp] theorem State.jump_regs (t : Word) : (s.jump t).regs = s.regs := rfl
@[simp] theorem State.jump_stack (t : Word) : (s.jump t).stack = s.stack := rfl
@[simp] theorem State.jump_pc (t : Word) : (s.jump t).pc = t := rfl
@[simp] theorem State.jump_out (t : Word) : (s.jump t).out = s.out := rfl
@[simp] theorem State.jump_inq (t : Word) : (s.jump t).inq = s.inq := rfl
@[simp] theorem State.jump_status (t : Word) : (s.jump t).status = s.status := rfl
@[simp] theorem State.jump_hostTurns (t : Word) : (s.jump t).hostTurns = s.hostTurns := rfl

/-! `State.advance` writes `pc` alone. -/

@[simp] theorem State.advance_mem (n : Nat) : (s.advance n).mem = s.mem := rfl
@[simp] theorem State.advance_regs (n : Nat) : (s.advance n).regs = s.regs := rfl
@[simp] theorem State.advance_stack (n : Nat) : (s.advance n).stack = s.stack := rfl
@[simp] theorem State.advance_pc (n : Nat) : (s.advance n).pc = s.pc + BitVec.ofNat 16 n := rfl
@[simp] theorem State.advance_out (n : Nat) : (s.advance n).out = s.out := rfl
@[simp] theorem State.advance_inq (n : Nat) : (s.advance n).inq = s.inq := rfl
@[simp] theorem State.advance_status (n : Nat) : (s.advance n).status = s.status := rfl
@[simp] theorem State.advance_hostTurns (n : Nat) : (s.advance n).hostTurns = s.hostTurns := rfl

/-! `State.raise` writes `status` alone. -/

@[simp] theorem State.raise_mem (k : FailKind) : (s.raise k).mem = s.mem := rfl
@[simp] theorem State.raise_regs (k : FailKind) : (s.raise k).regs = s.regs := rfl
@[simp] theorem State.raise_stack (k : FailKind) : (s.raise k).stack = s.stack := rfl
@[simp] theorem State.raise_pc (k : FailKind) : (s.raise k).pc = s.pc := rfl
@[simp] theorem State.raise_out (k : FailKind) : (s.raise k).out = s.out := rfl
@[simp] theorem State.raise_inq (k : FailKind) : (s.raise k).inq = s.inq := rfl
@[simp] theorem State.raise_status (k : FailKind) : (s.raise k).status = .failed k := rfl
@[simp] theorem State.raise_hostTurns (k : FailKind) : (s.raise k).hostTurns = s.hostTurns := rfl

/-! `State.halt` writes `status` alone. -/

@[simp] theorem State.halt_mem : s.halt.mem = s.mem := rfl
@[simp] theorem State.halt_regs : s.halt.regs = s.regs := rfl
@[simp] theorem State.halt_stack : s.halt.stack = s.stack := rfl
@[simp] theorem State.halt_pc : s.halt.pc = s.pc := rfl
@[simp] theorem State.halt_out : s.halt.out = s.out := rfl
@[simp] theorem State.halt_inq : s.halt.inq = s.inq := rfl
@[simp] theorem State.halt_status : s.halt.status = .halted := rfl
@[simp] theorem State.halt_hostTurns : s.halt.hostTurns = s.hostTurns := rfl

/-! `State.refill` writes `inq` alone. -/

@[simp] theorem State.refill_mem (line : List Word) : (s.refill line).mem = s.mem := rfl
@[simp] theorem State.refill_regs (line : List Word) : (s.refill line).regs = s.regs := rfl
@[simp] theorem State.refill_stack (line : List Word) : (s.refill line).stack = s.stack := rfl
@[simp] theorem State.refill_pc (line : List Word) : (s.refill line).pc = s.pc := rfl
@[simp] theorem State.refill_out (line : List Word) : (s.refill line).out = s.out := rfl
@[simp] theorem State.refill_inq (line : List Word) : (s.refill line).inq = s.inq ++ line ++ [newline] := rfl
@[simp] theorem State.refill_status (line : List Word) : (s.refill line).status = s.status := rfl
@[simp] theorem State.refill_hostTurns (line : List Word) : (s.refill line).hostTurns = s.hostTurns := rfl

/-! `State.awaitInput` changes INQ and the model's own counter, nothing else (44_io R132). -/

/-- The two things a turn of the host can be: a refill with some line, or nothing. -/
theorem State.awaitInput_cases :
    (∃ line, s.awaitInput = { s.refill line with hostTurns := s.hostTurns + 1 }) ∨
      s.awaitInput = { s with hostTurns := s.hostTurns + 1 } := by
  unfold State.awaitInput
  split
  · exact .inl ⟨_, rfl⟩
  · exact .inr rfl

@[simp] theorem State.awaitInput_mem : s.awaitInput.mem = s.mem := by
  rcases s.awaitInput_cases with ⟨_, h⟩ | h <;> simp [h]

@[simp] theorem State.awaitInput_regs : s.awaitInput.regs = s.regs := by
  rcases s.awaitInput_cases with ⟨_, h⟩ | h <;> simp [h]

@[simp] theorem State.awaitInput_stack : s.awaitInput.stack = s.stack := by
  rcases s.awaitInput_cases with ⟨_, h⟩ | h <;> simp [h]

@[simp] theorem State.awaitInput_pc : s.awaitInput.pc = s.pc := by
  rcases s.awaitInput_cases with ⟨_, h⟩ | h <;> simp [h]

@[simp] theorem State.awaitInput_out : s.awaitInput.out = s.out := by
  rcases s.awaitInput_cases with ⟨_, h⟩ | h <;> simp [h]

@[simp] theorem State.awaitInput_status : s.awaitInput.status = s.status := by
  rcases s.awaitInput_cases with ⟨_, h⟩ | h <;> simp [h]

@[simp] theorem State.awaitInput_hostTurns : s.awaitInput.hostTurns = s.hostTurns + 1 := by
  rcases s.awaitInput_cases with ⟨_, h⟩ | h <;> simp [h]

end Sys2Proof.Machine
end

