-- ==== Sys2Proof/Laws/Memory.lean ====
section
/-! SUPPORT. The Memory Bank: reading after writing, and every operation keeps the canonical form. -/

namespace Sys2Proof.Machine

/-! Reading. -/

theorem Memory.read_erase (m : Memory) (a b : Nat) :
    (m.erase a).read b = if b = a then 0 else m.read b := by
  induction m with
  | nil => simp [Memory.erase, Memory.read]
  | cons e m ih =>
    obtain ⟨k, w⟩ := e
    by_cases hk : k = a <;> by_cases hb : k = b <;> simp_all [Memory.erase, Memory.read]

theorem Memory.read_place (m : Memory) (a b : Nat) (v : Word) (h : ∀ e ∈ m, e.1 ≠ a) :
    (m.place a v).read b = if b = a then v else m.read b := by
  induction m with
  | nil => simp [Memory.place, Memory.read, eq_comm]
  | cons e m ih =>
    obtain ⟨k, w⟩ := e
    have hk : k ≠ a := h (k, w) (by simp)
    have ih := ih fun e he => h e (by simp [he])
    by_cases hlt : a < k
    · simp [Memory.place, Memory.read, hlt, eq_comm]
    · by_cases hb : k = b
      · subst hb; simp [Memory.place, Memory.read, hlt, hk]
      · simp [Memory.place, Memory.read, hlt, hb, ih]

theorem Memory.erase_absent (m : Memory) (a : Nat) : ∀ e ∈ m.erase a, e.1 ≠ a := by
  induction m with
  | nil => simp [Memory.erase]
  | cons e m ih =>
    obtain ⟨k, w⟩ := e
    by_cases hk : k = a
    · simpa [Memory.erase, hk] using ih
    · simpa [Memory.erase, hk] using ih

/-- A written cell reads as what was written and every other cell as before, whatever the memory (20_memory R41). -/
theorem Memory.read_write (m : Memory) (a b : Nat) (v : Word) :
    (m.write a v).read b = if b = a then v else m.read b := by
  unfold Memory.write
  split
  · next h => rw [Memory.read_erase, h]
  · rw [Memory.read_place _ _ _ _ (m.erase_absent a), Memory.read_erase]
    split <;> simp_all

/-! The canonical form. -/

theorem Memory.wfFrom_mono {m : Memory} {lo lo' : Nat} (h : m.wfFrom lo = true) (hle : lo' ≤ lo) :
    m.wfFrom lo' = true := by
  cases m with
  | nil => rfl
  | cons e m =>
    obtain ⟨k, w⟩ := e
    simp only [Memory.wfFrom, Bool.and_eq_true, decide_eq_true_eq] at h ⊢
    exact ⟨⟨⟨hle.trans h.1.1.1, h.1.1.2⟩, h.1.2⟩, h.2⟩

theorem Memory.wfFrom_erase {m : Memory} {lo : Nat} (a : Nat) (h : m.wfFrom lo = true) :
    (m.erase a).wfFrom lo = true := by
  induction m generalizing lo with
  | nil => rfl
  | cons e m ih =>
    obtain ⟨k, w⟩ := e
    simp only [Memory.wfFrom, Bool.and_eq_true, decide_eq_true_eq] at h
    simp only [Memory.erase]
    split
    · exact Memory.wfFrom_mono (ih h.2) (by omega)
    · simp only [Memory.wfFrom, Bool.and_eq_true, decide_eq_true_eq]
      exact ⟨h.1, ih h.2⟩

theorem Memory.wfFrom_place {m : Memory} {lo a : Nat} {v : Word} (h : m.wfFrom lo = true) (hlo : lo ≤ a)
    (ha : a < 32768) (hv : v ≠ 0) (habs : ∀ e ∈ m, e.1 ≠ a) : (m.place a v).wfFrom lo = true := by
  induction m generalizing lo with
  | nil => simpa [Memory.place, Memory.wfFrom, hlo, ha] using hv
  | cons e m ih =>
    obtain ⟨k, w⟩ := e
    have hk : k ≠ a := habs (k, w) (by simp)
    simp only [Memory.wfFrom, Bool.and_eq_true, decide_eq_true_eq] at h
    simp only [Memory.place]
    split
    · simp only [Memory.wfFrom, Bool.and_eq_true, decide_eq_true_eq]
      exact ⟨⟨⟨hlo, ha⟩, hv⟩, ⟨⟨by omega, h.1.1.2⟩, h.1.2⟩, h.2⟩
    · simp only [Memory.wfFrom, Bool.and_eq_true, decide_eq_true_eq]
      exact ⟨h.1, ih h.2 (by omega) fun e he => habs e (by simp [he])⟩

/-- MemWrite at a cell that exists keeps the canonical form. -/
theorem Memory.wf_write {m : Memory} {a : Nat} (v : Word) (h : m.wf = true) (ha : a < 32768) :
    (m.write a v).wf = true := by
  unfold Memory.write
  split
  · exact Memory.wfFrom_erase a h
  · next hv => exact Memory.wfFrom_place (Memory.wfFrom_erase a h) (Nat.zero_le a) ha hv (m.erase_absent a)

/-- Words written to cells that exist keep the canonical form. -/
theorem Memory.wf_writeWords {m : Memory} {a : Nat} {ws : List Word} (h : m.wf = true)
    (ha : a + ws.length ≤ 32768) : (m.writeWords a ws).wf = true := by
  induction ws generalizing m a with
  | nil => exact h
  | cons w ws ih =>
    simp only [List.length_cons] at ha
    exact ih (Memory.wf_write w h (by omega)) (by omega)

/-- Memory after reset is canonical. -/
theorem reset_mem_wf : State.reset.mem.wf = true := by decide

/-- Words written from an address on are read there, and every other cell as before (20_memory R43). -/
theorem Memory.read_writeWords (m : Memory) (a x : Nat) (ws : List Word) :
    (m.writeWords a ws).read x = if h : a ≤ x ∧ x - a < ws.length then ws[x - a] else m.read x := by
  induction ws generalizing m a with
  | nil => simp [Memory.writeWords]
  | cons w ws ih =>
    simp only [Memory.writeWords, ih, Memory.read_write]
    by_cases hx : x = a
    · subst hx; simp
    · by_cases h : a + 1 ≤ x ∧ x - (a + 1) < ws.length
      · rw [dif_pos h, dif_pos (by simp only [List.length_cons]; omega), List.getElem_cons, dif_neg (by omega)]
        simp only [Nat.sub_sub]
      · rw [dif_neg h, dif_neg (by simp only [List.length_cons]; omega), if_neg hx]

/-! Fetching words. -/

/-- From a cell that exists the first word reached is that cell's. -/
theorem Memory.words_succ (m : Memory) {a : Nat} (n : Nat) (h : a < 32768) :
    m.words a (n + 1) = m.read a :: m.words (a + 1) n := by simp [Memory.words, h]

/-- From beyond the top no word is reached. -/
theorem Memory.words_beyond (m : Memory) {a : Nat} (n : Nat) (h : 32768 ≤ a) : m.words a n = [] := by
  cases n with
  | zero => rfl
  | succ n => simp [Memory.words, Nat.not_lt.mpr h]

/-- As many words are reached as are asked for and exist. -/
theorem Memory.length_words (m : Memory) (a n : Nat) : (m.words a n).length = min n (32768 - a) := by
  induction n generalizing a with
  | zero => simp [Memory.words]
  | succ n ih =>
    simp only [Memory.words]
    split
    · simp only [List.length_cons, ih]; omega
    · simp only [List.length_nil]; omega

/-- The k-th word reached is the k-th cell's. -/
theorem Memory.getElem_words {m : Memory} {a n k : Nat} {w : Word} (h : (m.words a n)[k]? = some w) :
    m.read (a + k) = w := by
  induction n generalizing a k with
  | zero => simp [Memory.words] at h
  | succ n ih =>
    simp only [Memory.words] at h
    split at h
    · cases k with
      | zero => simpa using h
      | succ k =>
        rw [← ih (by simpa using h)]
        congr 1
        omega
    · simp at h

end Sys2Proof.Machine
end

