-- ==== Sys2Proof/Laws/Operands.lean ====
section
/-! SUPPORT. What the address normalizer and the two-phase form can do, said once. -/

namespace Sys2Proof.Machine

variable (s : State)

/-! Read normalization. -/

@[simp] theorem State.rdOp_lit (v : BitVec 15) : s.rdOp (.lit v) = .ok (v.setWidth 16) := rfl
@[simp] theorem State.rdOp_reg (i : Fin 8) : s.rdOp (.reg i) = .ok s.regs[i] := rfl
@[simp] theorem State.rdOp_invalid (w : Word) : s.rdOp (.invalid w) = .error .addressFault := rfl

/-- Reading an operand fails only for an invalid word, with AddressFault. -/
theorem State.rdOp_error {s : State} {a : Operand} {k : FailKind} (h : s.rdOp a = .error k) :
    k = .addressFault ∧ ∃ w, a = .invalid w := by
  cases a with
  | lit v => cases h
  | reg i => cases h
  | invalid w => cases h; exact ⟨rfl, w, rfl⟩

/-- Reading sees the registers alone. -/
theorem State.rdOp_congr {s t : State} (h : s.regs = t.regs) (a : Operand) : s.rdOp a = t.rdOp a := by
  cases a <;> simp [h]

/-! The checks. -/

@[simp] theorem chkDst_lit (v : BitVec 15) : chkDst (.lit v) = .ok () := rfl
@[simp] theorem chkDst_reg (i : Fin 8) : chkDst (.reg i) = .ok () := rfl
@[simp] theorem chkDst_invalid (w : Word) : chkDst (.invalid w) = .error .addressFault := rfl
@[simp] theorem chkRegDst_lit (v : BitVec 15) : chkRegDst (.lit v) = .error .addressFault := rfl
@[simp] theorem chkRegDst_reg (i : Fin 8) : chkRegDst (.reg i) = .ok i := rfl
@[simp] theorem chkRegDst_invalid (w : Word) : chkRegDst (.invalid w) = .error .addressFault := rfl

/-- An address check answers only for addresses that exist, and otherwise raises AddressFault. -/
theorem chkAddr_cases (e : Word) :
    (chkAddr e = .ok () ∧ e.toNat < 32768) ∨ (chkAddr e = .error .addressFault ∧ 32768 ≤ e.toNat) := by
  unfold chkAddr
  split
  · exact .inl ⟨rfl, ‹_›⟩
  · exact .inr ⟨rfl, by omega⟩

/-- A target check answers only for addresses that exist, and otherwise raises AddressFault. -/
theorem chkTarget_cases (t : Word) :
    (chkTarget t = .ok () ∧ t.toNat < 32768) ∨ (chkTarget t = .error .addressFault ∧ 32768 ≤ t.toNat) := by
  unfold chkTarget
  split
  · exact .inl ⟨rfl, ‹_›⟩
  · exact .inr ⟨rfl, by omega⟩

/-- The top of the stack is there, or StackUnderflow is raised. -/
theorem State.top_cases :
    (∃ v r, s.stack = v :: r ∧ s.top = .ok v) ∨ (s.stack = [] ∧ s.top = .error .stackUnderflow) := by
  unfold State.top
  split
  · next v r h => exact .inl ⟨v, r, h, rfl⟩
  · next h => exact .inr ⟨h, rfl⟩

/-! Writing a destination. -/

@[simp] theorem State.wrOp_lit (w : BitVec 15) (v : Word) : s.wrOp (.lit w) v = s.memWrite w.toNat v := rfl
@[simp] theorem State.wrOp_reg (i : Fin 8) (v : Word) : s.wrOp (.reg i) v = s.setReg i v := rfl
@[simp] theorem State.wrOp_invalid (w v : Word) : s.wrOp (.invalid w) v = s := rfl
@[simp] theorem State.wrOp_stack (a : Operand) (v : Word) : (s.wrOp a v).stack = s.stack := by cases a <;> rfl
@[simp] theorem State.wrOp_pc (a : Operand) (v : Word) : (s.wrOp a v).pc = s.pc := by cases a <;> rfl
@[simp] theorem State.wrOp_out (a : Operand) (v : Word) : (s.wrOp a v).out = s.out := by cases a <;> rfl
@[simp] theorem State.wrOp_inq (a : Operand) (v : Word) : (s.wrOp a v).inq = s.inq := by cases a <;> rfl
@[simp] theorem State.wrOp_status (a : Operand) (v : Word) : (s.wrOp a v).status = s.status := by cases a <;> rfl
@[simp] theorem State.wrOp_hostTurns (a : Operand) (v : Word) : (s.wrOp a v).hostTurns = s.hostTurns := by
  cases a <;> rfl

/-- A destination write keeps memory canonical: a literal always names a cell that exists. -/
theorem State.wrOp_wf {s : State} (h : s.mem.wf = true) (a : Operand) (v : Word) : (s.wrOp a v).mem.wf = true := by
  cases a with
  | lit w => exact Memory.wf_write v h w.isLt
  | reg i => exact h
  | invalid w => exact h

/-! The two-phase form. -/

@[simp] theorem State.complete_ok (t : State) : s.complete (.ok t) = .next t := rfl
@[simp] theorem State.complete_error (k : FailKind) : s.complete (.error k) = .next (s.raise k) := rfl

/-- Everything the two-phase form can do: phase 1 passed and its state is committed, or a fatal condition is taken. -/
theorem State.complete_cases {s t : State} {p : Except FailKind State} (h : s.complete p = .next t) :
    p = .ok t ∨ ∃ k, p = .error k ∧ t = s.raise k := by
  cases p with
  | ok u => cases h; exact .inl rfl
  | error k => cases h; exact .inr ⟨k, rfl, rfl⟩

/-- The two-phase form always answers a next state. -/
theorem State.complete_next (p : Except FailKind State) : ∃ t, s.complete p = .next t := by
  cases p with
  | ok u => exact ⟨u, rfl⟩
  | error k => exact ⟨s.raise k, rfl⟩

end Sys2Proof.Machine
end

