-- ==== Sys2Proof/Laws/Exec.lean ====
section
/-! SUPPORT. What the shared shapes of instructions and the cycle can do, said once. -/

namespace Sys2Proof.Machine

/-- Everything a binary ALU instruction can do (42_arithmetic_logic R100): its result is written and pc advances by 4,
or a fatal condition is taken. -/
theorem aluBinary_cases {f : Word → Word → Except FailKind Word} {a b c : Operand} {s t : State}
    (h : aluBinary f a b c s = .next t) :
    (∃ vb vc r, chkDst a = .ok () ∧ s.rdOp b = .ok vb ∧ s.rdOp c = .ok vc ∧ f vb vc = .ok r ∧
      t = (s.wrOp a r).advance 4) ∨ ∃ k, t = s.raise k := by
  obtain h | ⟨k, -, h⟩ := State.complete_cases h
  · cases hd : chkDst a <;> rw [hd] at h
    · cases h
    cases hb : s.rdOp b with
    | error k => rw [hb] at h; cases h
    | ok vb =>
      cases hc : s.rdOp c with
      | error k => rw [hb, hc] at h; cases h
      | ok vc =>
        cases hr : f vb vc with
        | error k => rw [hb, hc] at h; simp only [bind, Except.bind, hr] at h; cases h
        | ok r =>
          rw [hb, hc] at h
          simp only [bind, Except.bind, hr] at h
          cases h
          exact .inl ⟨vb, vc, r, rfl, rfl, rfl, hr, rfl⟩
  · exact .inr ⟨k, h⟩

/-- Everything a conditional jump can do (43_control_flow R121, R122): jump to a target that exists, advance by 3, or
take a fatal condition. -/
theorem branch_cases {p : Word → Bool} {a b : Operand} {s t : State} (h : branch p a b s = .next t) :
    (∃ va u, s.rdOp a = .ok va ∧ s.rdOp b = .ok u ∧ p va = true ∧ u.toNat < 32768 ∧ t = s.jump u) ∨
    (∃ va u, s.rdOp a = .ok va ∧ s.rdOp b = .ok u ∧ p va = false ∧ t = s.advance 3) ∨ ∃ k, t = s.raise k := by
  obtain h | ⟨k, -, h⟩ := State.complete_cases h
  · cases ha : s.rdOp a with
    | error k => rw [ha] at h; cases h
    | ok va =>
      cases hb : s.rdOp b with
      | error k => rw [ha, hb] at h; cases h
      | ok u =>
        rw [ha, hb] at h
        cases hp : p va with
        | true =>
          simp only [bind, Except.bind, hp, if_true] at h
          obtain ⟨hu, hlt⟩ | ⟨hu, -⟩ := chkTarget_cases u
          · rw [hu] at h; cases h; exact .inl ⟨va, u, rfl, rfl, hp, hlt, rfl⟩
          · rw [hu] at h; cases h
        | false =>
          simp only [bind, Except.bind, hp] at h
          cases h
          exact .inr (.inl ⟨va, u, rfl, rfl, hp, rfl⟩)
  · exact .inr (.inr ⟨k, h⟩)

/-- Everything a step can do (46_execution_loop R146): it runs the instruction at pc, or takes the fatal condition of
a rejected fetch; both only when STATUS is Running. -/
theorem step_cases {s t : State} (h : step s = .next t) :
    s.status = .running ∧
      ((∃ i, s.fetchInstr = .ok i ∧ exec i s = .next t) ∨
        ∃ e, s.fetchInstr = .error e ∧ t = s.raise (fetchFailure e)) := by
  unfold step at h
  split at h
  · cases h
  · cases h
  · next hs =>
    refine ⟨hs, ?_⟩
    split at h
    · next i hi => exact .inl ⟨i, hi, h⟩
    · next e he => cases h; exact .inr ⟨e, he, rfl⟩

/-- The words a fetch reaches from a pc that exists begin with the opcode word. -/
theorem State.fetchWords_eq {s : State} (h : s.pc.toNat < 32768) :
    s.fetchWords = s.memRead s.pc.toNat :: s.mem.words (s.pc.toNat + 1) 3 :=
  Memory.words_succ _ 3 h

/-- Everything a fetch can answer (46_execution_loop R146 steps 1 to 3): pc is out of range; the word at pc is no opcode;
or it is one, and the instruction lies inside the Memory Bank and is decoded, or does not and is rejected. -/
theorem State.fetchInstr_cases (s : State) :
    (32768 ≤ s.pc.toNat ∧ s.fetchInstr = .error .noOpcodeWord) ∨
    (s.pc.toNat < 32768 ∧ opcodeOfWord (s.memRead s.pc.toNat) = none ∧
      s.fetchInstr = .error (.unknownOpcode (s.memRead s.pc.toNat))) ∨
    (s.pc.toNat < 32768 ∧ ∃ op, opcodeOfWord (s.memRead s.pc.toNat) = some op ∧
      ((∃ i, s.fetchInstr = .ok i ∧ i.opcode = op ∧ s.pc.toNat + i.length ≤ 32768) ∨
        (s.fetchInstr = .error .missingOperand ∧
          ∀ i : Instr, i.opcode = op → 32768 < s.pc.toNat + i.length))) := by
  unfold State.fetchInstr
  by_cases hp : s.pc.toNat < 32768
  · refine .inr ?_
    rw [State.fetchWords_eq hp]
    simp only [decode]
    cases ho : opcodeOfWord (s.memRead s.pc.toNat) with
    | none => exact .inl ⟨hp, rfl, rfl⟩
    | some op =>
      refine .inr ⟨hp, op, rfl, ?_⟩
      have hl := s.mem.length_words (s.pc.toNat + 1) 3
      rcases decodeOperands_cases op (s.mem.words (s.pc.toNat + 1) 3) with ⟨i, rest, hd, hi, hn⟩ | ⟨hd, hn⟩
      · simp only [hd]
        exact .inl ⟨i, rfl, hi, by omega⟩
      · simp only [hd]
        refine .inr ⟨rfl, fun i hi => ?_⟩
        have h4 : i.length ≤ 4 := by cases i <;> simp [Instr.length, Instr.operands]
        have := hn i hi
        omega
  · refine .inl ⟨by omega, ?_⟩
    unfold State.fetchWords
    rw [Memory.words_beyond _ _ (by omega)]
    rfl

end Sys2Proof.Machine
end

