-- ==== Sys2Proof/Laws/PerInstr.lean ====
section
/-! SUPPORT. Facts about every instruction as syntax, one lemma per constructor. -/

namespace Sys2Proof.Laws.EncodingShape

/-- The encoding of an instruction has its length, at most four words, and the opcode word alone names the opcode
(30_encoding R60, R61, R66). -/
def Statement (i : Instr) : Prop :=
  (encode i).length = i.length ∧ i.length ≤ 4 ∧ (encode i).head?.bind opcodeOfWord = some i.opcode

theorem halt : Statement .halt :=
  ⟨rfl, by simp [Instr.length, Instr.operands], rfl⟩

theorem set (a b : Operand) : Statement (.set a b) :=
  ⟨rfl, by simp [Instr.length, Instr.operands], rfl⟩

theorem push (a : Operand) : Statement (.push a) :=
  ⟨rfl, by simp [Instr.length, Instr.operands], rfl⟩

theorem pop (a : Operand) : Statement (.pop a) :=
  ⟨rfl, by simp [Instr.length, Instr.operands], rfl⟩

theorem eq (a b c : Operand) : Statement (.eq a b c) :=
  ⟨rfl, by simp [Instr.length, Instr.operands], rfl⟩

theorem gt (a b c : Operand) : Statement (.gt a b c) :=
  ⟨rfl, by simp [Instr.length, Instr.operands], rfl⟩

theorem jmp (a : Operand) : Statement (.jmp a) :=
  ⟨rfl, by simp [Instr.length, Instr.operands], rfl⟩

theorem jt (a b : Operand) : Statement (.jt a b) :=
  ⟨rfl, by simp [Instr.length, Instr.operands], rfl⟩

theorem jf (a b : Operand) : Statement (.jf a b) :=
  ⟨rfl, by simp [Instr.length, Instr.operands], rfl⟩

theorem add (a b c : Operand) : Statement (.add a b c) :=
  ⟨rfl, by simp [Instr.length, Instr.operands], rfl⟩

theorem mult (a b c : Operand) : Statement (.mult a b c) :=
  ⟨rfl, by simp [Instr.length, Instr.operands], rfl⟩

theorem mod (a b c : Operand) : Statement (.mod a b c) :=
  ⟨rfl, by simp [Instr.length, Instr.operands], rfl⟩

theorem and (a b c : Operand) : Statement (.and a b c) :=
  ⟨rfl, by simp [Instr.length, Instr.operands], rfl⟩

theorem or (a b c : Operand) : Statement (.or a b c) :=
  ⟨rfl, by simp [Instr.length, Instr.operands], rfl⟩

theorem not (a b : Operand) : Statement (.not a b) :=
  ⟨rfl, by simp [Instr.length, Instr.operands], rfl⟩

theorem rmem (a b : Operand) : Statement (.rmem a b) :=
  ⟨rfl, by simp [Instr.length, Instr.operands], rfl⟩

theorem wmem (a b : Operand) : Statement (.wmem a b) :=
  ⟨rfl, by simp [Instr.length, Instr.operands], rfl⟩

theorem call (a : Operand) : Statement (.call a) :=
  ⟨rfl, by simp [Instr.length, Instr.operands], rfl⟩

theorem ret : Statement .ret :=
  ⟨rfl, by simp [Instr.length, Instr.operands], rfl⟩

theorem out (a : Operand) : Statement (.out a) :=
  ⟨rfl, by simp [Instr.length, Instr.operands], rfl⟩

theorem inp (a : Operand) : Statement (.inp a) :=
  ⟨rfl, by simp [Instr.length, Instr.operands], rfl⟩

theorem noop : Statement .noop :=
  ⟨rfl, by simp [Instr.length, Instr.operands], rfl⟩

end Sys2Proof.Laws.EncodingShape
end

