-- ==== Sys2Proof/Tests/Slice0.lean ====
section
/-! SUPPORT. The model's own tests, expected results taken from 95_test_vectors and the rules' examples; ill-formed
terms; and for each statement with hypotheses a witness that meets them, at the boundaries of its clauses. -/

namespace Sys2Proof.Tests

open Sys2Proof.Machine

/-! ## Ill-formed terms: an Invalid operand whose word is of another class -/

theorem test_wf_refuses_literal_as_invalid : (Operand.invalid 0).wf = false := by decide
theorem test_wf_refuses_selector_as_invalid : (Operand.invalid 32775).wf = false := by decide
theorem test_wf_first_operand : (Instr.push (.invalid 5)).wf = false := by decide
theorem test_wf_second_operand : (Instr.jt (.lit 0) (.invalid 32768)).wf = false := by decide
theorem test_wf_third_operand : (Instr.add (.reg 0) (.lit 1) (.invalid 32767)).wf = false := by decide
theorem test_wf_accepts_invalid_class : (Instr.jt (.lit 0) (.invalid 40000)).wf = true := by decide

/-! ## Decoding: a word sequence per constructor, from 30_encoding R64, R65 and the encodings of the rules -/

theorem test_decode_halt : decode [0] = .ok (.halt, []) := by decide
theorem test_decode_set : decode [1, 32769, 1234] = .ok (.set (.reg 1) (.lit 1234), []) := by decide
theorem test_decode_push : decode [2, 32768] = .ok (.push (.reg 0), []) := by decide
theorem test_decode_pop : decode [3, 300] = .ok (.pop (.lit 300), []) := by decide
theorem test_decode_eq : decode [4, 32769, 32768, 10] = .ok (.eq (.reg 1) (.reg 0) (.lit 10), []) := by decide
theorem test_decode_gt : decode [5, 32768, 5, 4] = .ok (.gt (.reg 0) (.lit 5) (.lit 4), []) := by decide
theorem test_decode_jmp : decode [6, 100] = .ok (.jmp (.lit 100), []) := by decide
theorem test_decode_jt : decode [7, 0, 40000] = .ok (.jt (.lit 0) (.invalid 40000), []) := by decide
theorem test_decode_jf : decode [8, 32769, 0] = .ok (.jf (.reg 1) (.lit 0), []) := by decide
theorem test_decode_add : decode [9, 32768, 32767, 2] = .ok (.add (.reg 0) (.lit 32767) (.lit 2), []) := by decide
theorem test_decode_mult : decode [10, 32768, 20000, 20000] = .ok (.mult (.reg 0) (.lit 20000) (.lit 20000), []) := by decide
theorem test_decode_mod : decode [11, 40000, 1, 0] = .ok (.mod (.invalid 40000) (.lit 1) (.lit 0), []) := by decide
theorem test_decode_and : decode [12, 32768, 12, 10] = .ok (.and (.reg 0) (.lit 12) (.lit 10), []) := by decide
theorem test_decode_or : decode [13, 32768, 12, 10] = .ok (.or (.reg 0) (.lit 12) (.lit 10), []) := by decide
theorem test_decode_not : decode [14, 32768, 0] = .ok (.not (.reg 0) (.lit 0), []) := by decide
theorem test_decode_rmem : decode [15, 32768, 32769] = .ok (.rmem (.reg 0) (.reg 1), []) := by decide
theorem test_decode_wmem : decode [16, 20, 32768] = .ok (.wmem (.lit 20) (.reg 0), []) := by decide
theorem test_decode_call : decode [17, 32771] = .ok (.call (.reg 3), []) := by decide
theorem test_decode_ret : decode [18] = .ok (.ret, []) := by decide
theorem test_decode_out : decode [19, 72] = .ok (.out (.lit 72), []) := by decide
theorem test_decode_in : decode [20, 32775] = .ok (.inp (.reg 7), []) := by decide
theorem test_decode_noop : decode [21] = .ok (.noop, []) := by decide

/-- `set r0 65` as image bytes (30_encoding section 5). -/
theorem test_decode_bytes : decodeBytes [0x01, 0x00, 0x00, 0x80, 0x41, 0x00] = some (.set (.reg 0) (.lit 65)) := by
  decide
/-- The first word is no opcode (V-LP2); an opcode word is never normalized (V-LP3). -/
theorem test_decode_unknown : decode [22, 0, 0, 0] = .error (.unknownOpcode 22) := by decide
theorem test_decode_selector_is_no_opcode : decode [32768] = .error (.unknownOpcode 32768) := by decide
/-- An operand word is missing (V-LP6); the opcode is judged first (V-LP7). -/
theorem test_decode_missing_operand : decode [2] = .error .missingOperand := by decide
theorem test_decode_table_word : decodeTableWord 32 (2 + 32768 * 65536) = some (.push (.reg 0)) := by decide

/-! ## Instructions: one step at pc = 100 of the words given, from 95_test_vectors part 2 -/

/-- pc = 100, registers as given. -/
def at100 (regs : List Word) : State :=
  { State.reset with pc := 100, regs := #v[regs.getD 0 0, regs.getD 1 0, regs.getD 2 0, regs.getD 3 0, 0, 0, 0, 0] }

/-- The next state of an outcome that has one. -/
def stateOf : StepOutcome → Option State
  | .next t => some t
  | .fault _ => none
  | .refused _ => none

/-- The state after one step that runs the words, placed at pc. -/
def go (ws : List Word) (s : State) : Option State := stateOf (step (s.placeAtPc ws))

/-- V-CF20. -/
theorem test_halt : go [0] (at100 [7]) = some { at100 [7] with status := .halted } := by decide
/-- V-DM2. -/
theorem test_set_register : (go [1, 32769, 32770] (at100 [0, 0, 77])).map (fun t => (t.reg 1, t.pc)) = some (77, 103) := by decide
/-- V-DM3. -/
theorem test_set_literal_faults : (go [1, 100, 5] (at100 [])).map (fun t => (t.memRead 100, t.pc, t.status)) = some (1, 100, .failed .addressFault) := by decide
/-- V-DM4. -/
theorem test_push : (go [2, 32768] { at100 [7] with stack := [5] }).map (fun t => (t.stack, t.pc)) = some ([7, 5], 102) := by decide
/-- V-DM20. -/
theorem test_push_invalid : (go [2, 32776] (at100 [])).map (fun t => (t.stack, t.status)) = some ([], .failed .addressFault) := by decide
/-- V-DM6. -/
theorem test_pop_to_memory : (go [3, 300] { at100 [] with stack := [7, 5] }).map (fun t => (t.memRead 300, t.stack, t.pc)) = some (7, [5], 102) := by decide
/-- V-DM19. -/
theorem test_pop_class_before_stack : (go [3, 40000] (at100 [])).map (fun t => t.status) = some (.failed .addressFault) := by decide
/-- V-AL26. -/
theorem test_eq_reads_register : (go [4, 32768, 32769, 5] (at100 [0, 5])).map (fun t => (t.reg 0, t.pc, t.status)) = some (1, 104, .running) := by decide
/-- V-AL34. -/
theorem test_eq_whole_words : (go [4, 32768, 32769, 7232] (at100 [9, 40000])).map (fun t => (t.reg 0, t.pc, t.status)) = some (0, 104, .running) := by decide
/-- V-AL29. -/
theorem test_gt_strict : (go [5, 32768, 5, 5] (at100 [9])).map (fun t => (t.reg 0, t.pc, t.status)) = some (0, 104, .running) := by decide
/-- V-AL30. -/
theorem test_gt_unsigned : (go [5, 32768, 32767, 0] (at100 [])).map (fun t => (t.reg 0, t.pc, t.status)) = some (1, 104, .running) := by decide
/-- V-CF2. -/
theorem test_jmp_register : (go [6, 32768] (at100 [500])).map (fun t => (t.pc, t.status)) = some (500, .running) := by decide
/-- V-CF3. -/
theorem test_jmp_out_of_range : (go [6, 32768] (at100 [40000])).map (fun t => (t.pc, t.status)) = some (100, .failed .addressFault) := by decide
/-- V-CF7. -/
theorem test_jt_unclean_is_nonzero : (go [7, 32768, 500] (at100 [40000])).map (fun t => t.pc) = some 500 := by decide
/-- V-CF8. -/
theorem test_jt_unused_invalid : (go [7, 0, 40000] (at100 [])).map (fun t => (t.pc, t.status)) = some (100, .failed .addressFault) := by decide
/-- V-CF9 with the dual instruction (R122). -/
theorem test_jf_not_taken_target_unchecked : (go [8, 1, 32769] (at100 [0, 40000])).map (fun t => (t.pc, t.status)) = some (103, .running) := by decide
/-- V-CF11. -/
theorem test_jf_taken : (go [8, 0, 500] (at100 [])).map (fun t => t.pc) = some 500 := by decide
/-- S1. -/
theorem test_add_wraps : (go [9, 32768, 32767, 2] (at100 [])).map (fun t => (t.reg 0, t.pc, t.status)) = some (1, 104, .running) := by decide
/-- V-AL6. -/
theorem test_add_literal_source_is_no_cell : (go [9, 5, 5, 1] (at100 [])).map (fun t => (t.memRead 5, t.pc)) = some (6, 104) := by decide
/-- S2. -/
theorem test_mult : (go [10, 32768, 20000, 20000] (at100 [])).map (fun t => (t.reg 0, t.pc, t.status)) = some (1024, 104, .running) := by decide
/-- V-AL32. -/
theorem test_mod_unclean : (go [11, 32768, 32769, 32770] (at100 [0, 40000, 50000])).map (fun t => (t.reg 0, t.pc, t.status)) = some (7232, 104, .running) := by decide
/-- V-AL14. -/
theorem test_mod_zero : (go [11, 32768, 32769, 32770] (at100 [3, 4, 0])).map (fun t => (t.reg 0, t.pc, t.status)) = some (3, 100, .failed .arithmeticFault) := by decide
/-- V-AL16. -/
theorem test_and : (go [12, 32768, 12, 10] (at100 [])).map (fun t => (t.reg 0, t.pc, t.status)) = some (8, 104, .running) := by decide
/-- R109: and r0 r1 r1 with x[1] = 40000. -/
theorem test_and_unclean : (go [12, 32768, 32769, 32769] (at100 [0, 40000])).map (fun t => (t.reg 0, t.pc, t.status)) = some (7232, 104, .running) := by decide
/-- V-AL18. -/
theorem test_or : (go [13, 32768, 12, 10] (at100 [])).map (fun t => (t.reg 0, t.pc, t.status)) = some (14, 104, .running) := by decide
/-- R109: or r0 r1 0 with x[1] = 40000. -/
theorem test_or_unclean : (go [13, 32768, 32769, 0] (at100 [0, 40000])).map (fun t => (t.reg 0, t.pc, t.status)) = some (7232, 104, .running) := by decide
/-- V-AL23: source and destination the same. -/
theorem test_not : (go [14, 32768, 32768] (at100 [20422])).map (fun t => (t.reg 0, t.pc, t.status)) = some (12345, 103, .running) := by decide
/-- V-AL33. -/
theorem test_not_unclean : (go [14, 32768, 32769] (at100 [0, 40000])).map (fun t => (t.reg 0, t.pc, t.status)) = some (25535, 103, .running) := by decide
/-- V-DM21. -/
theorem test_rmem_reads_itself : (go [15, 32768, 100] (at100 [])).map (fun t => (t.reg 0, t.pc, t.status)) = some (15, 103, .running) := by decide
/-- V-DM15. -/
theorem test_rmem_out_of_range : (go [15, 32768, 32769] (at100 [1, 40000])).map (fun t => (t.reg 0, t.pc, t.status)) = some (1, 100, .failed .addressFault) := by decide
/-- V-DM9. -/
theorem test_wmem_dereferences : (go [16, 32769, 77] (at100 [0, 300])).map (fun t => (t.memRead 300, t.reg 1, t.pc)) = some (77, 300, 103) := by decide
/-- V-DM16. -/
theorem test_wmem_no_register_alias : (go [16, 32769, 5] (at100 [3, 32768])).map (fun t => (t.reg 0, t.pc, t.status)) = some (3, 100, .failed .addressFault) := by decide
/-- V-CF14. -/
theorem test_call : (go [17, 32771] { at100 [0, 0, 0, 900] with stack := [7] }).map (fun t => (t.stack, t.pc)) = some ([102, 7], 900) := by decide
/-- V-CF15. -/
theorem test_call_out_of_range : (go [17, 32771] { at100 [0, 0, 0, 40000] with stack := [7] }).map (fun t => (t.stack, t.pc, t.status)) = some ([7], 100, .failed .addressFault) := by decide
/-- V-CF16. -/
theorem test_ret : (go [18] { at100 [] with stack := [102, 7] }).map (fun t => (t.stack, t.pc)) = some ([7], 102) := by decide
/-- V-CF18. -/
theorem test_ret_keeps_bad_target : (go [18] { at100 [] with stack := [40000] }).map (fun t => (t.stack, t.pc, t.status)) = some ([40000], 100, .failed .addressFault) := by decide
/-- V-IO2. -/
theorem test_out : (go [19, 32768] { at100 [10] with out := [72] }).map (fun t => (t.out, t.pc)) = some ([72, 10], 102) := by decide
/-- V-IO4. -/
theorem test_in : (go [20, 32768] { at100 [] with inq := [104, 105, 10] }).map (fun t => (t.reg 0, t.inq, t.pc)) = some (104, [105, 10], 102) := by decide
/-- V-LP1. -/
theorem test_noop : go [21] (at100 [4]) = some { (at100 [4]).placeAtPc [21] with pc := 101 } := by decide

/-- V-IO6: `in` on an empty queue keeps pc, STATUS and the destination, whatever the host does at its turn. -/
theorem test_in_waits : (go [20, 32768] (at100 [3])).map (fun t => (t.reg 0, t.pc, t.status)) = some (3, 100, .running) := by
  have h : go [20, 32768] (at100 [3]) = some (State.awaitInput ((at100 [3]).placeAtPc [20, 32768])) := rfl
  rw [h]
  unfold State.awaitInput
  split <;> rfl

/-! ## Fetch, reset, host (V-LP5 to V-LP11, R42, R35) -/

/-- V-LP5: a `noop` in the last cell leaves pc = 32768, and the next cycle raises AddressFault there. -/
theorem test_noop_at_top :
    (stateOf (step { State.reset with pc := 32767, mem := [(32767, 21)] })).map (fun t => (t.pc, t.status)) =
      some (32768, .running) := by decide
theorem test_fetch_past_top :
    (stateOf (step { State.reset with pc := 32768 })).map (fun t => (t.pc, t.status)) =
      some (32768, .failed .addressFault) := by decide
/-- V-LP6 and V-LP7. -/
theorem test_operand_past_top :
    (stateOf (step { State.reset with pc := 32767, mem := [(32767, 2)] })).map (fun t => (t.pc, t.status)) =
      some (32767, .failed .addressFault) := by decide
theorem test_decode_before_operand_range :
    (stateOf (step { State.reset with pc := 32767, mem := [(32767, 22)] })).map (fun t => (t.pc, t.status)) =
      some (32767, .failed .decodeFault) := by decide
/-- A store of 0 unlists its cell, so that memory stays canonical. -/
theorem test_store_zero_unlists : Memory.write [(3, 7), (5, 9)] 3 0 = [(5, 9)] := by decide
theorem test_memory_not_canonical : Memory.wf [(5, 9), (3, 7)] = false ∧ Memory.wf [(5, 0)] = false ∧
    Memory.wf [(32768, 1)] = false := by decide
/-- R42: the bytes of `set r0 65` are the words 1, 32768, 65. -/
theorem test_image_bytes : wordsOfBytes [0x01, 0x00, 0x00, 0x80, 0x41, 0x00] = some [1, 32768, 65] := by decide
/-- P8, second line: the image `18` run from reset fails with StackUnderflow, the budget left unused. -/
theorem test_run_from_boot : ((State.boot [18] []).bind (run 2 2)).map (fun t => (t.pc, t.status)) =
    some (0, .failed .stackUnderflow) := by decide
/-- The host's placing of a first instruction after reset: `push` with an operand word of zeros. -/
theorem test_with_fetch_word : (stateOf (step (State.reset.withFetchWord 16 2))).map (fun t => (t.stack, t.pc)) =
      some ([0], 2) := by decide

/-! ## Witnesses: each statement's hypotheses are met, clause by clause, at the boundaries -/

/-- pc as high as an instruction of `n` words allows; r0 = 32768, r1 = 32767, r7 = 40000; one entry on the stack. -/
def edge (n : Nat) : State :=
  { State.reset with
    pc := BitVec.ofNat 16 (32768 - n), regs := #v[32768, 32767, 0, 0, 0, 0, 0, 40000], stack := [32767] }

theorem witness_DecodeEncodeRoundTrip :
    (Instr.add (.invalid 32776) (.lit 32767) (.reg 7)).wf = true := by decide
theorem witness_DecodedWordsAreTheEncoding :
    decode [9, 32776, 32767, 32775, 5] = .ok (.add (.invalid 32776) (.lit 32767) (.reg 7), [5]) := by decide
theorem witness_ReadNormalization : (32767 : Word).toNat ≤ 32767 ∧
    (32768 : Word).toNat = 32768 + (0 : Fin 8).val ∧ (32775 : Word).toNat = 32768 + (7 : Fin 8).val ∧
    32776 ≤ (32776 : Word).toNat := by decide
theorem witness_WriteTargetResolution : (32767 : Word).toNat ≤ 32767 ∧
    (32768 : Word).toNat = 32768 + (0 : Fin 8).val ∧ (32775 : Word).toNat = 32768 + (7 : Fin 8).val ∧
    32776 ≤ (32776 : Word).toNat := by decide
theorem witness_SetWritesRegister : Fits (edge 3) 3 ∧ ¬ (Selects 32767 ∧ Usable 32775) ∧
    ¬ (Selects 32768 ∧ Usable 32776) ∧ (32775 : Word).toNat = 32768 + (7 : Fin 8).val ∧ Usable 32775 := by decide
theorem witness_PushAppendsToStack : Fits (edge 2) 2 ∧ ¬ Usable 32776 ∧ Usable 32775 := by decide
theorem witness_PopTakesTop : Fits (edge 2) 2 ∧ ¬ Usable 32776 ∧ Usable 32775 ∧ (edge 2).stack = 32767 :: [] ∧
    ({ edge 2 with stack := [] } : State).stack = [] := by decide
theorem witness_RmemReadsCell : Fits (edge 3) 3 ∧ ¬ (Usable 32775 ∧ Usable 32776) ∧
    (Usable 32768 ∧ 32767 < (valueOf (edge 3) 32768).toNat) ∧
    (Usable 32769 ∧ (valueOf (edge 3) 32769).toNat ≤ 32767) := by decide
theorem witness_WmemWritesCell : Fits (edge 3) 3 ∧ ¬ (Usable 32776 ∧ Usable 32775) ∧
    (Usable 32768 ∧ 32767 < (valueOf (edge 3) 32768).toNat) ∧
    (Usable 32769 ∧ (valueOf (edge 3) 32769).toNat ≤ 32767) := by decide

/-- What the hypotheses of a binary ALU instruction's rule need: a state it fits in, words that are not all usable,
and words that are. -/
abbrev BinaryHypotheses : Prop := Fits (edge 4) 4 ∧ ¬ (Usable 32775 ∧ Usable 0 ∧ Usable 32776) ∧
    Usable 32775 ∧ Usable 32767 ∧ Usable 32768

theorem witness_AddSumsModulo32768 : BinaryHypotheses := by decide
theorem witness_MultMultipliesModulo32768 : BinaryHypotheses := by decide
theorem witness_AndIsBitwise : BinaryHypotheses := by decide
theorem witness_OrIsBitwise : BinaryHypotheses := by decide
theorem witness_EqComparesWords : BinaryHypotheses := by decide
theorem witness_GtComparesUnsigned : BinaryHypotheses := by decide
theorem witness_ModGivesRemainder : BinaryHypotheses ∧ (Usable 32770 ∧ valueOf (edge 4) 32770 = 0) ∧
    (Usable 1 ∧ valueOf (edge 4) 1 ≠ 0) := by decide
theorem witness_NotComplements15Bits : Fits (edge 3) 3 ∧ ¬ (Usable 32775 ∧ Usable 32776) ∧ Usable 32775 ∧
    Usable 32768 := by decide
theorem witness_AluResultsAreClean :
    (Instr.not (.reg 0) (.reg 7)).opcode ∈ [Opcode.add, .mult, .mod, .and, .or, .not, .eq, .gt] ∧
    ∃ t, exec (.not (.reg 0) (.reg 7)) (edge 3) = .next t := ⟨by decide, _, rfl⟩
theorem witness_JmpSetsPc : ¬ Usable 32776 ∧ (Usable 32768 ∧ 32767 < (valueOf (edge 2) 32768).toNat) ∧
    (Usable 32769 ∧ (valueOf (edge 2) 32769).toNat ≤ 32767) := by decide
theorem witness_JtBranchesOnNonzero : Fits (edge 3) 3 ∧ ¬ (Usable 0 ∧ Usable 32776) ∧
    (Usable 32775 ∧ valueOf (edge 3) 32775 ≠ 0 ∧ Usable 32768 ∧ 32767 < (valueOf (edge 3) 32768).toNat) ∧
    (Usable 32769 ∧ (valueOf (edge 3) 32769).toNat ≤ 32767) ∧ (Usable 0 ∧ ¬ valueOf (edge 3) 0 ≠ 0) := by decide
theorem witness_JfBranchesOnZero : Fits (edge 3) 3 ∧ ¬ (Usable 1 ∧ Usable 32776) ∧
    (Usable 32770 ∧ valueOf (edge 3) 32770 = 0 ∧ Usable 32768 ∧ 32767 < (valueOf (edge 3) 32768).toNat) ∧
    (Usable 32769 ∧ (valueOf (edge 3) 32769).toNat ≤ 32767) ∧ (Usable 1 ∧ ¬ valueOf (edge 3) 1 = 0) := by decide
theorem witness_CallPushesReturnAddress : Fits (edge 2) 2 ∧ ¬ Usable 32776 ∧
    (Usable 32768 ∧ 32767 < (valueOf (edge 2) 32768).toNat) ∧
    (Usable 32769 ∧ (valueOf (edge 2) 32769).toNat ≤ 32767) := by decide
theorem witness_RetPopsIntoPc : State.reset.stack = [] ∧
    ({ State.reset with stack := [32768] } : State).stack = (32768 : Word) :: [] ∧ 32767 < (32768 : Word).toNat ∧
    (edge 1).stack = (32767 : Word) :: [] ∧ (32767 : Word).toNat ≤ 32767 := by decide
theorem witness_RetResumesAfterCall : Fits (edge 2) 2 ∧ Usable 32769 ∧ (valueOf (edge 2) 32769).toNat ≤ 32767 ∧
    (edge 2).pc.toNat + 2 = 32768 ∧ Fits (edge 3) 2 ∧ (valueOf (edge 3) 32769).toNat ≤ 32767 ∧
    (edge 3).pc.toNat + 2 ≤ 32767 := by decide
theorem witness_OutAppendsWord : Fits (edge 2) 2 ∧ ¬ Usable 32776 ∧ Usable 32775 := by decide
theorem witness_InTakesOldestCode : Fits { edge 2 with inq := [65535, 10] } 2 ∧ ¬ Usable 32776 ∧ Usable 32775 ∧
    ({ edge 2 with inq := [65535, 10] } : State).inq = (65535 : Word) :: [10] := by decide
theorem witness_InWaitsOnEmptyQueue : Usable 32775 ∧ (edge 2).inq = [] := by decide
theorem witness_InCompletesAfterRefill : Fits (edge 2) 2 ∧ Usable 32775 ∧ (edge 2).inq = [] := by decide
theorem witness_NoopAdvancesByOne : Fits (edge 1) 1 := by decide
theorem witness_MemoryFrame : ∃ t, exec (.wmem (.reg 1) (.reg 7)) (edge 3) = .next t ∧
    storeAddress (.wmem (.reg 1) (.reg 7)) (edge 3) ≠ some 32766 := ⟨_, rfl, by decide⟩
theorem witness_RegisterFrame : ∃ t, exec (.not (.reg 0) (.reg 7)) (edge 3) = .next t ∧
    writtenRegister (.not (.reg 0) (.reg 7)) ≠ some 7 := ⟨_, rfl, by decide⟩
theorem witness_StackFrame : ∃ t, exec (.pop (.reg 0)) (edge 2) = .next t := ⟨_, rfl⟩
theorem witness_StreamFrame : ∃ t, exec (.out (.reg 7)) (edge 2) = .next t := ⟨_, rfl⟩
theorem witness_StatusFrame : ∃ t, exec .halt (edge 1) = .next t := ⟨_, rfl⟩
theorem witness_StepRunsDecodedInstruction : ({ edge 1 with mem := [(32767, 18)] } : State).status = .running ∧
    decode (State.fetchWords { edge 1 with mem := [(32767, 18)] }) = .ok (.ret, []) := by decide
theorem witness_StepRunsEncodedInstruction : ({ edge 1 with mem := [(32767, 18)] } : State).status = .running ∧
    Instr.ret.wf = true ∧ Fits { edge 1 with mem := [(32767, 18)] } Instr.ret.length ∧
    ∀ (k : Nat) (w : Word), (encode .ret)[k]? = some w →
      State.memRead { edge 1 with mem := [(32767, 18)] }
        (({ edge 1 with mem := [(32767, 18)] } : State).pc.toNat + k) = w := by
  refine ⟨by decide, by decide, by decide, fun k w h => ?_⟩
  match k, h with
  | 0, h => cases h; decide
theorem witness_FetchBeyondMemoryFaults : (edge 0).status = .running ∧ 32768 ≤ (edge 0).pc.toNat ∧
    ({ edge 3 with mem := [(32765, 9)] } : State).pc.toNat ≤ 32767 ∧
    opcodeOfWord (State.memRead { edge 3 with mem := [(32765, 9)] } 32765) =
      some (Instr.add (.lit 0) (.lit 0) (.lit 0)).opcode ∧
    ¬ Fits { edge 3 with mem := [(32765, 9)] } (Instr.add (.lit 0) (.lit 0) (.lit 0)).length := by decide
theorem witness_StackUnderflowExactly : ∃ s t : State, s.status = .running ∧ step s = .next t ∧
    t.status = .failed .stackUnderflow :=
  ⟨{ edge 1 with mem := [(32767, 18)], stack := [] }, _, rfl, rfl, rfl⟩
theorem witness_ArithmeticFaultExactly : ∃ s t : State, s.status = .running ∧ step s = .next t ∧
    t.status = .failed .arithmeticFault :=
  ⟨{ State.reset with mem := [(0, 11), (1, 32768), (2, 5)] }, _, rfl, rfl, rfl⟩
theorem witness_DecodeFaultExactly : ∃ s t : State, s.status = .running ∧ step s = .next t ∧
    t.status = .failed .decodeFault :=
  ⟨{ edge 1 with mem := [(32767, 22)] }, _, rfl, rfl, rfl⟩
theorem witness_AddressFaultExactly : (edge 0).status = .running ∧ Sys2Proof.Claims.AddressFaultCause (edge 0) :=
  ⟨rfl, .inl (by decide)⟩
theorem witness_FatalConditionsArePrecise : ∃ t, step (edge 0) = .next t ∧ t.status = .failed .addressFault :=
  ⟨_, rfl, rfl⟩
theorem witness_TerminalStatesArePermanent : State.EndedNormally { edge 1 with status := .halted } ∧
    State.EndedAbnormally { edge 1 with status := .failed .decodeFault } := ⟨rfl, _, rfl⟩
theorem witness_RunningStateHasNext : (edge 0).status = .running := by decide
theorem witness_StepKeepsInvariant : State.Inv { edge 1 with mem := [(32767, 21)] } ∧
    ∃ t, step { edge 1 with mem := [(32767, 21)] } = .next t := ⟨⟨by decide, by decide⟩, _, rfl⟩
theorem witness_BootMeetsInvariant : ∃ s, State.boot [6, 0] [104, 10] = some s := ⟨_, rfl⟩
theorem witness_OutputOnlyGrows : ∃ t, core.run 2 { State.reset with mem := [(0, 19), (1, 72)] } = .next t ∧
    t.out = [72] := ⟨_, rfl, rfl⟩
theorem witness_OutputIsNeverRead : ∃ t, step { State.reset with mem := [(0, 19), (1, 72)] } = .next t := ⟨_, rfl⟩
theorem witness_WmemRmemRoundTrip : Usable 32769 ∧ Usable 32775 ∧ Usable 32767 ∧
    (valueOf (edge 3) 32769).toNat ≤ 32767 := by decide
theorem witness_StoreIsSeenByNextFetch : Usable 32769 ∧ Usable 21 ∧ (edge 4).pc.toNat + 3 ≤ 32767 ∧
    (valueOf (edge 4) 32769).toNat = (edge 4).pc.toNat + 3 := by decide
theorem witness_BootLoadsImage : [65535, 32768].length ≤ 32768 ∧ (32767 : Nat) ≤ 32767 := by decide
theorem witness_BootSetsTheRest : (∃ s, State.boot [6, 0] [104, 10] = some s) ∧
    32768 < (List.replicate 32769 (0 : Word)).length := ⟨⟨_, rfl⟩, by rw [List.length_replicate]; decide⟩
theorem witness_ImageBytesAreLittleEndian : [(1 : Byte)].length % 2 = 1 ∧ [(65 : Byte), 0].length % 2 = 0 ∧
    ([65] : List Word)[0]? = some 65 ∧ [(65 : Byte), 0][2 * 0]? = some 65 ∧ [(65 : Byte), 0][2 * 0 + 1]? = some 0 := by
  decide
theorem witness_RunContinues : ∃ t u, run 1 1 { State.reset with mem := [(0, 6)] } = some t ∧
    run 2 2 t = some u := ⟨_, _, rfl, rfl⟩
theorem witness_RunCompletesItsBudget : ∃ t, run 2 2 { State.reset with mem := [(0, 6)] } = some t ∧
    t.status = .running := ⟨_, rfl, rfl⟩

end Sys2Proof.Tests
end

section
/-! The address normalizer on raw words (spec/40_address_normalizer): which class a word's number puts it in, then what
RdOp, ChkDst and WrOp do in each class. -/

namespace Sys2Proof

/-! The class of a raw word (R80). -/

theorem Operand.ofWord_of_le {w : Word} (h : w.toNat ≤ 32767) :
    ∃ v : BitVec 15, Operand.ofWord w = .lit v ∧ v.setWidth 16 = w ∧ v.toNat = w.toNat := by
  rcases Operand.ofWord_cases w with ⟨-, hv⟩ | ⟨i, hw, -⟩ | ⟨hw, -⟩
  · exact hv
  · omega
  · omega

theorem Operand.ofWord_of_selector {w : Word} {i : Fin 8} (h : w.toNat = 32768 + i.val) :
    Operand.ofWord w = .reg i := by
  rcases Operand.ofWord_cases w with ⟨hw, -⟩ | ⟨j, hw, hj⟩ | ⟨hw, -⟩
  · omega
  · rw [hj, Fin.ext (by omega : j.val = i.val)]
  · omega

theorem Operand.ofWord_of_ge {w : Word} (h : 32776 ≤ w.toNat) : Operand.ofWord w = .invalid w := by
  rcases Operand.ofWord_cases w with ⟨hw, -⟩ | ⟨i, hw, -⟩ | ⟨-, hi⟩
  · omega
  · omega
  · exact hi

end Sys2Proof

namespace Sys2Proof.Machine

/-! What a write leaves to be read (R83). -/

theorem State.memRead_memWrite (s : State) (a x : Nat) (v : Word) :
    (s.memWrite a v).memRead x = if x = a then v else s.memRead x :=
  Memory.read_write s.mem a x v

theorem State.getElem_setReg_regs (s : State) (i j : Fin 8) (v : Word) :
    (s.setReg i v).regs[j] = if j = i then v else s.regs[j] := by
  simp [Vector.getElem_set, Fin.ext_iff, eq_comm]

/-- Settles O4, by the class of the word. -/
theorem readNormalization : Obligations.ReadNormalization := by
  intro s w
  refine ⟨fun hlit => ?_, fun i hsel => ?_, fun hinv => ?_⟩
  · obtain ⟨x, hx, hval, -⟩ := Operand.ofWord_of_le hlit
    rw [hx, State.rdOp_lit, hval]
  · rw [Operand.ofWord_of_selector hsel, State.rdOp_reg]
  · rw [Operand.ofWord_of_ge hinv, State.rdOp_invalid]

/-- Settles O5, by the class of the word: a literal's write is a `memWrite` at the word's own number, a selector's a
`setReg`. -/
theorem writeTargetResolution : Obligations.WriteTargetResolution := by
  intro s w v
  refine ⟨fun hlit => ?_, fun i hsel => ?_, fun hinv => ?_⟩
  · obtain ⟨x, hx, -, hcell⟩ := Operand.ofWord_of_le hlit
    rw [hx, State.wrOp_lit, hcell]
    exact ⟨chkDst_lit x, (s.memWrite w.toNat v).mem, rfl, fun y => s.memRead_memWrite w.toNat y v⟩
  · rw [Operand.ofWord_of_selector hsel, State.wrOp_reg]
    exact ⟨chkDst_reg i, (s.setReg i v).regs, rfl, fun j => s.getElem_setReg_regs i j v⟩
  · rw [Operand.ofWord_of_ge hinv, chkDst_invalid]

end Sys2Proof.Machine
end

section
/-! Raw words in every instruction's rule: the words an instruction is encoded in, and what RdOp, ChkDst, WrOp, the
advance and the stack's top are in the vocabulary of claims (`valueOf`, `stored`, `pcPlus`). -/

namespace Sys2Proof

/-- An instruction over raw words is encoded as its opcode number and those words (R60, R64). -/
theorem encode_of_operands {i : Instr} {ws : List Word} (h : i.operands = ws.map Operand.ofWord) :
    encode i = opcodeNumber i.opcode :: ws := by
  have hws : (ws.map Operand.ofWord).map Operand.toWord = ws := by
    simp [Function.comp_def, Operand.toWord_ofWord]
  rw [encode, h, hws]

/-- A raw word that is not Invalid is a selector's or a literal's (R80). -/
theorem Operand.ofWord_of_usable {w : Word} (h : Machine.Usable w) :
    (∃ _ : Machine.Selects w, Operand.ofWord w = .reg ⟨w.toNat - 32768, by omega⟩) ∨
    (¬ Machine.Selects w ∧ ∃ v : BitVec 15, Operand.ofWord w = .lit v ∧ v.setWidth 16 = w ∧
      v.toNat = w.toNat) := by
  by_cases hs : Machine.Selects w
  · exact .inl ⟨hs, Operand.ofWord_of_selector (show w.toNat = 32768 + (w.toNat - 32768) by omega)⟩
  · exact .inr ⟨hs, Operand.ofWord_of_le (by omega)⟩

theorem Operand.ofWord_of_not_usable {w : Word} (h : ¬ Machine.Usable w) : Operand.ofWord w = .invalid w :=
  Operand.ofWord_of_ge (by omega)

end Sys2Proof

namespace Sys2Proof.Machine

theorem State.rdOp_of_usable (s : State) {w : Word} (h : Usable w) : s.rdOp (.ofWord w) = .ok (valueOf s w) := by
  rcases Operand.ofWord_of_usable h with ⟨hs, hw⟩ | ⟨hs, x, hw, hval, -⟩
  · rw [hw, State.rdOp_reg, valueOf, dif_pos hs]; rfl
  · rw [hw, State.rdOp_lit, valueOf, dif_neg hs, hval]

theorem State.rdOp_of_not_usable (s : State) {w : Word} (h : ¬ Usable w) :
    s.rdOp (.ofWord w) = .error .addressFault := by
  rw [Operand.ofWord_of_not_usable h, State.rdOp_invalid]

theorem chkDst_of_usable {w : Word} (h : Usable w) : chkDst (.ofWord w) = .ok () := by
  rcases Operand.ofWord_of_usable h with ⟨_, hw⟩ | ⟨-, x, hw, -⟩
  · rw [hw, chkDst_reg]
  · rw [hw, chkDst_lit]

theorem chkDst_of_not_usable {w : Word} (h : ¬ Usable w) : chkDst (.ofWord w) = .error .addressFault := by
  rw [Operand.ofWord_of_not_usable h, chkDst_invalid]

theorem State.wrOp_of_usable (s : State) {w : Word} (v : Word) (h : Usable w) :
    s.wrOp (.ofWord w) v = stored s w v := by
  rcases Operand.ofWord_of_usable h with ⟨hs, hw⟩ | ⟨hs, x, hw, -, hcell⟩
  · rw [hw, State.wrOp_reg, stored, dif_pos hs]; rfl
  · rw [hw, State.wrOp_lit, stored, dif_neg hs, hcell]; rfl

@[simp] theorem stored_pc (s : State) (w v : Word) : (stored s w v).pc = s.pc := by
  unfold stored
  split <;> rfl

/-- The 16-bit advance is the plain sum as a Word: both are taken modulo 65536. -/
theorem State.advance_eq (s : State) (n : Nat) : s.advance n = { s with pc := pcPlus s n } := by
  rw [State.advance, pcPlus, BitVec.ofNat_add, BitVec.ofNat_toNat, BitVec.setWidth_eq]

theorem State.top_of_nil {s : State} (h : s.stack = []) : s.top = .error .stackUnderflow := by
  rw [State.top, h]

theorem State.top_of_cons {s : State} {v : Word} {r : List Word} (h : s.stack = v :: r) : s.top = .ok v := by
  rw [State.top, h]

theorem State.popped_of_cons {s : State} {v : Word} {r : List Word} (h : s.stack = v :: r) :
    s.popped = { s with stack := r } := by
  rw [State.popped, h, List.tail_cons]

end Sys2Proof.Machine
end

section
/-! `push` and `pop` (spec/41_data_movement R91, R92): each outcome from the results of its checks, then the statements
on raw words. -/

namespace Sys2Proof.Machine

theorem exec_push_of_rdOp_ok {a : Operand} {s : State} {v : Word} (h : s.rdOp a = .ok v) :
    exec (.push a) s = .next ((s.push v).advance 2) := by
  simp only [exec, execPush, h]; rfl

theorem exec_push_of_rdOp_error {a : Operand} {s : State} {k : FailKind} (h : s.rdOp a = .error k) :
    exec (.push a) s = .next (s.raise k) := by
  simp only [exec, execPush, h]; rfl

theorem exec_pop_of_chkDst_error {a : Operand} (s : State) {k : FailKind} (h : chkDst a = .error k) :
    exec (.pop a) s = .next (s.raise k) := by
  simp only [exec, execPop, h]; rfl

theorem exec_pop_of_top_error {a : Operand} {s : State} {k : FailKind} (hd : chkDst a = .ok ())
    (ht : s.top = .error k) : exec (.pop a) s = .next (s.raise k) := by
  simp only [exec, execPop, hd, ht]; rfl

theorem exec_pop_of_top_ok {a : Operand} {s : State} {v : Word} (hd : chkDst a = .ok ()) (ht : s.top = .ok v) :
    exec (.pop a) s = .next ((s.popped.wrOp a v).advance 2) := by
  simp only [exec, execPop, hd, ht]; rfl

/-- The pop and the destination write of `pop` do not see each other: no operand names the Call Stack. -/
theorem State.wrOp_popped (s : State) (a : Operand) (v : Word) : s.popped.wrOp a v = (s.wrOp a v).popped := by
  cases a <;> rfl

/-- Settles O7, by whether the operand is usable. -/
theorem pushAppendsToStack : Obligations.PushAppendsToStack := by
  intro s a _
  refine ⟨encode_of_operands (ws := [a]) rfl, fun hinv => ?_, fun ha => ?_⟩
  · exact exec_push_of_rdOp_error (s.rdOp_of_not_usable hinv)
  · rw [exec_push_of_rdOp_ok (s.rdOp_of_usable ha), State.advance_eq]
    rfl

/-- Settles O8, by the checks in their order: the operand's class, then the stack. A completed `pop` writes its
destination as if the stack were still whole. -/
theorem popTakesTop : Obligations.PopTakesTop := by
  intro s a _
  refine ⟨encode_of_operands (ws := [a]) rfl, fun hinv => ?_, fun ha hempty => ?_, fun v r ha hcons => ?_⟩
  · exact exec_pop_of_chkDst_error s (chkDst_of_not_usable hinv)
  · exact exec_pop_of_top_error (chkDst_of_usable ha) (State.top_of_nil hempty)
  · have hstack : (s.wrOp (.ofWord a) v).stack = v :: r := (s.wrOp_stack _ v).trans hcons
    rw [exec_pop_of_top_ok (chkDst_of_usable ha) (State.top_of_cons hcons), State.wrOp_popped,
      State.popped_of_cons hstack, State.advance_eq, s.wrOp_of_usable v ha]
    simp only [pcPlus, stored_pc]

end Sys2Proof.Machine
end

section
/-! The binary ALU instructions (spec/42_arithmetic_logic R100): each outcome of their common shape from the results of
its checks in order, the same on raw words, and from these the whole rule for a result that cannot fail. -/

namespace Sys2Proof.Machine

section Outcomes

variable {f : Word → Word → Except FailKind Word} {s : State}

/-! The common shape, by the results of its checks. -/

section Operands

variable {a b c : Operand} {vb vc : Word} {k : FailKind}

theorem aluBinary_of_chkDst_error (ha : chkDst a = .error k) : aluBinary f a b c s = .next (s.raise k) := by
  rw [aluBinary, ha]; rfl

theorem aluBinary_of_rdOp_left_error (ha : chkDst a = .ok ()) (hb : s.rdOp b = .error k) :
    aluBinary f a b c s = .next (s.raise k) := by
  rw [aluBinary, ha, hb]; rfl

theorem aluBinary_of_rdOp_right_error (ha : chkDst a = .ok ()) (hb : s.rdOp b = .ok vb)
    (hc : s.rdOp c = .error k) : aluBinary f a b c s = .next (s.raise k) := by
  rw [aluBinary, ha, hb, hc]; rfl

/-- With the three checks passed, the result alone decides. -/
theorem aluBinary_of_checks_ok (ha : chkDst a = .ok ()) (hb : s.rdOp b = .ok vb) (hc : s.rdOp c = .ok vc) :
    aluBinary f a b c s = s.complete ((f vb vc).map fun r => (s.wrOp a r).advance 4) := by
  rw [aluBinary, ha, hb, hc]; rfl

end Operands

/-! The common shape on raw words. -/

section RawWords

variable {a b c : Word}

/-- An Invalid operand word raises AddressFault in whichever position it stands, whatever the result would be. -/
theorem aluBinary_of_not_usable (h : ¬ (Usable a ∧ Usable b ∧ Usable c)) :
    aluBinary f (.ofWord a) (.ofWord b) (.ofWord c) s = .next (s.raise .addressFault) := by
  by_cases ha : Usable a
  · by_cases hb : Usable b
    · have hc : ¬ Usable c := fun hc => h ⟨ha, hb, hc⟩
      exact aluBinary_of_rdOp_right_error (chkDst_of_usable ha) (s.rdOp_of_usable hb) (s.rdOp_of_not_usable hc)
    · exact aluBinary_of_rdOp_left_error (chkDst_of_usable ha) (s.rdOp_of_not_usable hb)
  · exact aluBinary_of_chkDst_error (chkDst_of_not_usable ha)

theorem aluBinary_of_usable {r : Word} (ha : Usable a) (hb : Usable b) (hc : Usable c)
    (hf : f (valueOf s b) (valueOf s c) = .ok r) :
    aluBinary f (.ofWord a) (.ofWord b) (.ofWord c) s = .next { stored s a r with pc := pcPlus s 4 } := by
  rw [aluBinary_of_checks_ok (chkDst_of_usable ha) (s.rdOp_of_usable hb) (s.rdOp_of_usable hc), hf, Except.map,
    State.complete_ok, s.wrOp_of_usable r ha, State.advance_eq]
  simp only [pcPlus, stored_pc]

end RawWords

end Outcomes

/-- An instruction that is the common shape over a result that cannot fail obeys the rule of R100, for whatever
function of natural numbers that result computes. -/
theorem binaryRule_of_aluBinary {mk : Operand → Operand → Operand → Instr} {op : Opcode} {f : Nat → Nat → Nat}
    {g : Word → Word → Word} (hop : ∀ a b c, (mk a b c).opcode = op)
    (hoperands : ∀ a b c, (mk a b c).operands = [a, b, c])
    (hexec : ∀ a b c s, exec (mk a b c) s = aluBinary (fun x y => .ok (g x y)) a b c s)
    (hg : ∀ x y, g x y = BitVec.ofNat 16 (f x.toNat y.toNat)) : Claims.BinaryRule mk op f := by
  intro s a b c _
  refine ⟨?_, fun hinv => ?_, fun ha hb hc => ?_⟩
  · rw [encode_of_operands (ws := [a, b, c]) (hoperands _ _ _), hop]
  · rw [hexec]
    exact aluBinary_of_not_usable hinv
  · rw [hexec, ← hg]
    exact aluBinary_of_usable ha hb hc rfl

end Sys2Proof.Machine
end

section
/-! `add` and `mult` (spec/42_arithmetic_logic R101, R102): the common shape over the sum and the exact product, each
reduced modulo 32768. -/

namespace Sys2Proof.Machine

theorem exec_add (a b c : Operand) (s : State) :
    exec (.add a b c) s = aluBinary (fun x y => .ok (addWord x y)) a b c s := rfl

theorem exec_mult (a b c : Operand) (s : State) :
    exec (.mult a b c) s = aluBinary (fun x y => .ok (multWord x y)) a b c s := rfl

theorem addWord_eq (x y : Word) : addWord x y = BitVec.ofNat 16 ((x.toNat + y.toNat) % 32768) := rfl

theorem multWord_eq (x y : Word) : multWord x y = BitVec.ofNat 16 (x.toNat * y.toNat % 32768) := rfl

/-- Settles O11: `add` is the common shape, and `addWord` the sum modulo 32768. -/
theorem addSumsModulo32768 : Obligations.AddSumsModulo32768 :=
  binaryRule_of_aluBinary (fun _ _ _ => rfl) (fun _ _ _ => rfl) exec_add addWord_eq

/-- Settles O12: `mult` is the common shape, and `multWord` the exact product modulo 32768. -/
theorem multMultipliesModulo32768 : Obligations.MultMultipliesModulo32768 :=
  binaryRule_of_aluBinary (fun _ _ _ => rfl) (fun _ _ _ => rfl) exec_mult multWord_eq

end Sys2Proof.Machine
end

section
/-! `noop` (spec/45_noop R140): the advance by 1, in the vocabulary of claims. -/

namespace Sys2Proof.Machine

theorem exec_noop (s : State) : exec .noop s = .next (s.advance 1) := rfl

/-- Settles O31: `noop` has no operand words, and its whole effect is the advance by 1. -/
theorem noopAdvancesByOne : Obligations.NoopAdvancesByOne := by
  refine ⟨encode_of_operands (ws := []) rfl, fun s _ => ?_⟩
  rw [exec_noop, State.advance_eq]

end Sys2Proof.Machine
end

section
/-! Terminal states (spec/46_execution_loop R150, R151): Halted and Failed are not Running, and outside Running neither
`step` nor `run` goes on. -/

namespace Sys2Proof.Machine

theorem State.status_ne_running_of_ended {s : State} (h : s.EndedNormally ∨ s.EndedAbnormally) :
    s.status ≠ .running := by
  obtain hhalted | ⟨k, hfailed⟩ := h
  · rw [hhalted]; exact Status.noConfusion
  · rw [hfailed]; exact Status.noConfusion

theorem step_ne_next_of_not_running {s : State} (h : s.status ≠ .running) (t : State) : step s ≠ .next t :=
  fun hstep => h (step_cases hstep).left

/-- Outside Running `run` returns before any step, so neither the tick bound nor the budget matters. -/
theorem run_of_not_running {s : State} (h : s.status ≠ .running) (ticks budget : Nat) :
    run ticks budget s = some s := by
  cases ticks with
  | zero => exact if_pos (.inr h)
  | succ ticks => exact if_pos (.inr h)

/-- Settles O45: Running is what a next state needs, and what `run` tests before its first step. -/
theorem terminalStatesArePermanent : Obligations.TerminalStatesArePermanent := by
  intro s hended
  have hnot : s.status ≠ .running := State.status_ne_running_of_ended hended
  exact ⟨step_ne_next_of_not_running hnot, run_of_not_running hnot⟩

end Sys2Proof.Machine
end

section
/-! Which fatal conditions an instruction and a cycle can raise (spec/60_exceptions section 1): rules for phase 1
(00_scope R11), check by check, then one lemma over all instructions and one over the cycle. -/

namespace Sys2Proof.Machine

/-- Phase 1 answers a state whose STATUS is no failure, or a fatal kind that `E` admits. -/
def FailsOnlyAs (E : FailKind → Prop) : Except FailKind State → Prop
  | .ok t => ∀ k, t.status ≠ .failed k
  | .error k => E k

/-- Ending in `Failed(k)` means that `raise k` was all that happened, and that `E` admits `k`. -/
def RaisesOnly (E : FailKind → Prop) (s : State) (o : StepOutcome) : Prop :=
  ∀ t k, o = .next t → t.status = .failed k → t = s.raise k ∧ E k

/-- When an instruction raises a kind (R161 to R163). Which checks raise AddressFault is left open here (R164). -/
def raiseCause (s : State) (i : Instr) : FailKind → Prop
  | .stackUnderflow => s.stack = [] ∧ (i = .ret ∨ ∃ a, i = .pop a ∧ chkDst a = .ok ())
  | .arithmeticFault => ∃ a b c v, i = .mod a b c ∧ chkDst a = .ok () ∧ s.rdOp b = .ok v ∧ s.rdOp c = .ok 0
  | .decodeFault => False
  | .addressFault => True

/-- When a cycle raises a kind: the fetched instruction does, or the fetch is rejected with it. -/
def stepCause (s : State) (k : FailKind) : Prop :=
  (∃ i, s.fetchInstr = .ok i ∧ raiseCause s i k) ∨ ∃ e, s.fetchInstr = .error e ∧ fetchFailure e = k

theorem State.status_ne_failed_of_running {s : State} (h : s.status = .running) (k : FailKind) :
    s.status ≠ .failed k := by
  rw [h]; exact Status.noConfusion

/-! Phase 1, check by check. -/

section Phase1

variable {E : FailKind → Prop} {s t : State}

theorem failsOnlyAs_of_status_eq (hs : s.status = .running) (h : t.status = s.status) : FailsOnlyAs E (.ok t) :=
  State.status_ne_failed_of_running (h.trans hs)

theorem failsOnlyAs_bind {α : Type} {m : Except FailKind α} {f : α → Except FailKind State}
    (hm : ∀ k, m = .error k → E k) (hf : ∀ x, m = .ok x → FailsOnlyAs E (f x)) : FailsOnlyAs E (m >>= f) := by
  cases m with
  | ok x => exact hf x rfl
  | error k => exact hm k rfl

theorem failsOnlyAs_top {f : Word → Except FailKind State} (hempty : s.stack = [] → E .stackUnderflow)
    (hf : ∀ v, FailsOnlyAs E (f v)) : FailsOnlyAs E (s.top >>= f) := by
  obtain ⟨v, r, -, h⟩ | ⟨hnil, h⟩ := s.top_cases
  · rw [h]; exact hf v
  · rw [h]; exact hempty hnil

variable (hE : E .addressFault)
include hE

theorem failsOnlyAs_rdOp {a : Operand} {f : Word → Except FailKind State}
    (hf : ∀ v, s.rdOp a = .ok v → FailsOnlyAs E (f v)) : FailsOnlyAs E (s.rdOp a >>= f) := by
  refine failsOnlyAs_bind (fun k hk => ?_) hf
  obtain ⟨rfl, -⟩ := State.rdOp_error hk
  exact hE

theorem failsOnlyAs_chkDst {a : Operand} {f : Unit → Except FailKind State}
    (hf : chkDst a = .ok () → FailsOnlyAs E (f ())) : FailsOnlyAs E (chkDst a >>= f) := by
  cases a with
  | lit _ => exact hf rfl
  | reg _ => exact hf rfl
  | invalid _ => exact hE

theorem failsOnlyAs_chkRegDst {a : Operand} {f : Fin 8 → Except FailKind State}
    (hf : ∀ i, FailsOnlyAs E (f i)) : FailsOnlyAs E (chkRegDst a >>= f) := by
  cases a with
  | lit _ => exact hE
  | reg i => exact hf i
  | invalid _ => exact hE

theorem failsOnlyAs_chkAddr {e : Word} {f : Unit → Except FailKind State}
    (hf : FailsOnlyAs E (f ())) : FailsOnlyAs E (chkAddr e >>= f) := by
  obtain ⟨h, -⟩ | ⟨h, -⟩ := chkAddr_cases e
  · rw [h]; exact hf
  · rw [h]; exact hE

theorem failsOnlyAs_chkTarget {u : Word} {f : Unit → Except FailKind State}
    (hf : FailsOnlyAs E (f ())) : FailsOnlyAs E (chkTarget u >>= f) := by
  obtain ⟨h, -⟩ | ⟨h, -⟩ := chkTarget_cases u
  · rw [h]; exact hf
  · rw [h]; exact hE

end Phase1

/-! From phase 1 to the outcome, and the shared shapes of instructions. -/

section Outcomes

variable {E : FailKind → Prop} {s : State}

theorem raisesOnly_complete {p : Except FailKind State} (hp : FailsOnlyAs E p) : RaisesOnly E s (s.complete p) := by
  intro t k ht hk
  obtain rfl | ⟨j, rfl, rfl⟩ := State.complete_cases ht
  · exact absurd hk (hp k)
  · cases hk; exact ⟨rfl, hp⟩

theorem raisesOnly_aluBinary {f : Word → Word → Except FailKind Word} {a b c : Operand} (hs : s.status = .running)
    (hE : E .addressFault)
    (hf : ∀ vb vc k, chkDst a = .ok () → s.rdOp b = .ok vb → s.rdOp c = .ok vc → f vb vc = .error k → E k) :
    RaisesOnly E s (aluBinary f a b c s) :=
  raisesOnly_complete <| failsOnlyAs_chkDst hE fun ha => failsOnlyAs_rdOp hE fun vb hb =>
    failsOnlyAs_rdOp hE fun vc hc => failsOnlyAs_bind (fun k hk => hf vb vc k ha hb hc hk) fun r _ =>
      failsOnlyAs_of_status_eq hs (s.wrOp_status a r)

/-- A result that cannot fail leaves the operands' classes as the only cause. -/
theorem raisesOnly_aluBinary_total {g : Word → Word → Word} {a b c : Operand} (hs : s.status = .running)
    (hE : E .addressFault) : RaisesOnly E s (aluBinary (fun x y => .ok (g x y)) a b c s) :=
  raisesOnly_aluBinary hs hE fun _ _ _ _ _ _ h => nomatch h

theorem raisesOnly_branch {p : Word → Bool} {a b : Operand} (hs : s.status = .running) (hE : E .addressFault) :
    RaisesOnly E s (branch p a b s) := by
  refine raisesOnly_complete <| failsOnlyAs_rdOp hE fun va _ => failsOnlyAs_rdOp hE fun u _ => ?_
  split
  · exact failsOnlyAs_chkTarget hE (failsOnlyAs_of_status_eq hs rfl)
  · exact failsOnlyAs_of_status_eq hs rfl

end Outcomes

theorem modWord_zero (x : Word) : modWord x 0 = .error .arithmeticFault := if_pos rfl

theorem modWord_error {x y : Word} {k : FailKind} (h : modWord x y = .error k) : k = .arithmeticFault ∧ y = 0 := by
  unfold modWord at h
  split at h
  · next hy => cases h; exact ⟨rfl, hy⟩
  · cases h

/-! The single instructions whose fatal conditions are not all AddressFault. -/

theorem raisesOnly_mod {s : State} (hs : s.status = .running) (a b c : Operand) :
    RaisesOnly (raiseCause s (.mod a b c)) s (exec (.mod a b c) s) := by
  refine raisesOnly_aluBinary hs trivial fun vb vc k ha hb hc hk => ?_
  obtain ⟨rfl, rfl⟩ := modWord_error hk
  exact ⟨a, b, c, vb, rfl, ha, hb, hc⟩

theorem raisesOnly_pop {s : State} (hs : s.status = .running) (a : Operand) :
    RaisesOnly (raiseCause s (.pop a)) s (exec (.pop a) s) :=
  raisesOnly_complete <| failsOnlyAs_chkDst trivial fun ha =>
    failsOnlyAs_top (fun hempty => ⟨hempty, .inr ⟨a, rfl, ha⟩⟩) fun v =>
      failsOnlyAs_of_status_eq hs (s.popped.wrOp_status a v)

theorem raisesOnly_ret {s : State} (hs : s.status = .running) : RaisesOnly (raiseCause s .ret) s (exec .ret s) :=
  raisesOnly_complete <| failsOnlyAs_top (fun hempty => ⟨hempty, .inl rfl⟩) fun _ =>
    failsOnlyAs_chkTarget trivial (failsOnlyAs_of_status_eq hs rfl)

theorem raisesOnly_inp {s : State} (hs : s.status = .running) (a : Operand) :
    RaisesOnly (raiseCause s (.inp a)) s (exec (.inp a) s) := by
  refine raisesOnly_complete <| failsOnlyAs_chkDst trivial fun _ => ?_
  split
  · exact failsOnlyAs_of_status_eq hs s.awaitInput_status
  · exact failsOnlyAs_of_status_eq hs (s.inDequeue.wrOp_status a _)

/-- An instruction raises a fatal condition only for its cause, and then precisely (R166). -/
theorem exec_raisesOnly {s : State} (hs : s.status = .running) (i : Instr) :
    RaisesOnly (raiseCause s i) s (exec i s) := by
  have hE : raiseCause s i .addressFault := trivial
  cases i with
  | halt => exact raisesOnly_complete (p := .ok s.halt) fun _ => Status.noConfusion
  | set a b =>
    exact raisesOnly_complete <| failsOnlyAs_chkRegDst hE fun _ => failsOnlyAs_rdOp hE fun _ _ =>
      failsOnlyAs_of_status_eq hs rfl
  | push a => exact raisesOnly_complete <| failsOnlyAs_rdOp hE fun _ _ => failsOnlyAs_of_status_eq hs rfl
  | pop a => exact raisesOnly_pop hs a
  | eq a b c => exact raisesOnly_aluBinary_total hs hE
  | gt a b c => exact raisesOnly_aluBinary_total hs hE
  | jmp a =>
    exact raisesOnly_complete <| failsOnlyAs_rdOp hE fun _ _ => failsOnlyAs_chkTarget hE <|
      failsOnlyAs_of_status_eq hs rfl
  | jt a b => exact raisesOnly_branch hs hE
  | jf a b => exact raisesOnly_branch hs hE
  | add a b c => exact raisesOnly_aluBinary_total hs hE
  | mult a b c => exact raisesOnly_aluBinary_total hs hE
  | mod a b c => exact raisesOnly_mod hs a b c
  | and a b c => exact raisesOnly_aluBinary_total hs hE
  | or a b c => exact raisesOnly_aluBinary_total hs hE
  | not a b =>
    exact raisesOnly_complete <| failsOnlyAs_chkDst hE fun _ => failsOnlyAs_rdOp hE fun v _ =>
      failsOnlyAs_of_status_eq hs (s.wrOp_status a (notWord v))
  | rmem a b =>
    exact raisesOnly_complete <| failsOnlyAs_chkDst hE fun _ => failsOnlyAs_rdOp hE fun e _ =>
      failsOnlyAs_chkAddr hE <| failsOnlyAs_of_status_eq hs (s.wrOp_status a (s.memRead e.toNat))
  | wmem a b =>
    exact raisesOnly_complete <| failsOnlyAs_rdOp hE fun _ _ => failsOnlyAs_rdOp hE fun _ _ =>
      failsOnlyAs_chkAddr hE <| failsOnlyAs_of_status_eq hs rfl
  | call a =>
    exact raisesOnly_complete <| failsOnlyAs_rdOp hE fun _ _ => failsOnlyAs_chkTarget hE <|
      failsOnlyAs_of_status_eq hs rfl
  | ret => exact raisesOnly_ret hs
  | out a => exact raisesOnly_complete <| failsOnlyAs_rdOp hE fun _ _ => failsOnlyAs_of_status_eq hs rfl
  | inp a => exact raisesOnly_inp hs a
  | noop => exact raisesOnly_complete <| failsOnlyAs_of_status_eq hs (s.advance_status 1)

/-- A cycle raises a fatal condition only for its cause, and then precisely (R166). -/
theorem step_raisesOnly (s : State) : RaisesOnly (stepCause s) s (step s) := by
  intro t k ht hk
  obtain ⟨hs, ⟨i, hi, hexec⟩ | ⟨e, he, rfl⟩⟩ := step_cases ht
  · obtain ⟨rfl, hcause⟩ := exec_raisesOnly hs i t k hexec hk
    exact ⟨rfl, .inl ⟨i, hi, hcause⟩⟩
  · cases hk; exact ⟨rfl, .inr ⟨e, he, rfl⟩⟩

end Sys2Proof.Machine
end

section
/-! StackUnderflow, ArithmeticFault and DecodeFault (spec/60_exceptions R161 to R163): the cycles that raise them, and
that these are all. -/

namespace Sys2Proof.Machine

/-! One cycle, by what the fetch answers. -/

theorem step_of_fetchInstr_ok {s : State} {i : Instr} (hs : s.status = .running) (hi : s.fetchInstr = .ok i) :
    step s = exec i s := by
  simp only [step, hs, hi]

theorem step_of_fetchInstr_error {s : State} {e : DecodeError} (hs : s.status = .running)
    (he : s.fetchInstr = .error e) : step s = .next (s.raise (fetchFailure e)) := by
  simp only [step, hs, he]

/-- A rejected fetch raises AddressFault, or DecodeFault for a word that is no opcode number. -/
theorem fetchFailure_cases (e : DecodeError) :
    fetchFailure e = .addressFault ∨ fetchFailure e = .decodeFault ∧ ∃ w, e = .unknownOpcode w := by
  cases e with
  | noOpcodeWord => exact .inl rfl
  | unknownOpcode w => exact .inr ⟨rfl, w, rfl⟩
  | missingOperand => exact .inl rfl

/-- A kind is raised exactly when `P` holds, and precisely, as soon as every cause of it gives `P` and `P` raises it. -/
theorem raised_iff {s : State} {k : FailKind} {P : Prop} (hcause : stepCause s k → P)
    (hraise : P → step s = .next (s.raise k)) :
    ((∃ t, step s = .next t ∧ t.status = .failed k) ↔ P) ∧
      ∀ t, step s = .next t → t.status = .failed k → t = { s with status := .failed k } := by
  refine ⟨⟨fun ⟨t, ht, hk⟩ => ?_, fun hP => ⟨_, hraise hP, s.raise_status k⟩⟩, fun t ht hk => ?_⟩
  · obtain ⟨-, h⟩ := step_raisesOnly s t k ht hk
    exact hcause h
  · obtain ⟨h, -⟩ := step_raisesOnly s t k ht hk
    exact h

/-! The causes of each kind. -/

theorem stepCause_stackUnderflow {s : State} (h : stepCause s .stackUnderflow) :
    s.stack = [] ∧ (s.fetchInstr = .ok .ret ∨ ∃ a, s.fetchInstr = .ok (.pop a) ∧ chkDst a = .ok ()) := by
  obtain ⟨i, hi, hempty, rfl | ⟨a, rfl, ha⟩⟩ | ⟨e, -, he⟩ := h
  · exact ⟨hempty, .inl hi⟩
  · exact ⟨hempty, .inr ⟨a, hi, ha⟩⟩
  · obtain h | ⟨h, -⟩ := fetchFailure_cases e <;> cases h.symm.trans he

theorem stepCause_arithmeticFault {s : State} (h : stepCause s .arithmeticFault) :
    ∃ a b c v, s.fetchInstr = .ok (.mod a b c) ∧ chkDst a = .ok () ∧ s.rdOp b = .ok v ∧ s.rdOp c = .ok 0 := by
  obtain ⟨i, hi, a, b, c, v, rfl, hchecks⟩ | ⟨e, -, he⟩ := h
  · exact ⟨a, b, c, v, hi, hchecks⟩
  · obtain h | ⟨h, -⟩ := fetchFailure_cases e <;> cases h.symm.trans he

theorem stepCause_decodeFault {s : State} (h : stepCause s .decodeFault) :
    ∃ w, s.fetchInstr = .error (.unknownOpcode w) := by
  obtain ⟨i, -, hnever⟩ | ⟨e, hfetch, he⟩ := h
  · exact hnever.elim
  · obtain h | ⟨-, w, rfl⟩ := fetchFailure_cases e
    · cases h.symm.trans he
    · exact ⟨w, hfetch⟩

/-! The instructions that raise. -/

theorem exec_ret_of_top_error {s : State} {k : FailKind} (ht : s.top = .error k) :
    exec .ret s = .next (s.raise k) := by
  simp only [exec, execRet, ht]; rfl

theorem exec_mod (a b c : Operand) (s : State) : exec (.mod a b c) s = aluBinary modWord a b c s := rfl

theorem exec_mod_of_divisor_zero {a b c : Operand} {s : State} {v : Word} (ha : chkDst a = .ok ())
    (hb : s.rdOp b = .ok v) (hc : s.rdOp c = .ok 0) : exec (.mod a b c) s = .next (s.raise .arithmeticFault) := by
  rw [exec_mod, aluBinary_of_checks_ok ha hb hc, modWord_zero, Except.map, State.complete_error]

/-! When the opcode word is rejected. -/

theorem opcodeOfWord_eq_none_iff (w : Word) : opcodeOfWord w = none ↔ ∀ op, opcodeNumber op ≠ w := by
  constructor
  · rintro hnone op rfl
    rw [opcodeOfWord_opcodeNumber] at hnone
    cases hnone
  · intro hno
    cases h : opcodeOfWord w with
    | none => rfl
    | some op => exact absurd (opcodeNumber_of_opcodeOfWord h) (hno op)

/-- The fetch rejects the word at pc exactly when there is one and it is no opcode number (30_encoding R68). -/
theorem State.fetchInstr_unknownOpcode_iff (s : State) :
    (∃ w, s.fetchInstr = .error (.unknownOpcode w)) ↔
      s.pc.toNat ≤ 32767 ∧ ∀ op, opcodeNumber op ≠ s.memRead s.pc.toNat := by
  rw [← opcodeOfWord_eq_none_iff]
  obtain ⟨hpc, hf⟩ | ⟨hpc, hop, hf⟩ | ⟨-, op, hop, ⟨i, hf, -⟩ | ⟨hf, -⟩⟩ := s.fetchInstr_cases
  · exact iff_of_false (by simp [hf]) fun ⟨hle, _⟩ => by omega
  · exact iff_of_true ⟨_, hf⟩ ⟨by omega, hop⟩
  · exact iff_of_false (by simp [hf]) (by simp [hop])
  · exact iff_of_false (by simp [hf]) (by simp [hop])

/-- Settles O40: the causes of StackUnderflow are `ret` and `pop` meeting an empty stack, and both raise it. -/
theorem stackUnderflowExactly : Obligations.StackUnderflowExactly := by
  refine ⟨rfl, fun s hs => raised_iff stepCause_stackUnderflow ?_⟩
  rintro ⟨hempty, hret | ⟨a, hpop, ha⟩⟩
  · rw [step_of_fetchInstr_ok hs hret]
    exact exec_ret_of_top_error (State.top_of_nil hempty)
  · rw [step_of_fetchInstr_ok hs hpop]
    exact exec_pop_of_top_error ha (State.top_of_nil hempty)

/-- Settles O41: the one cause of ArithmeticFault is `mod` with a divisor of value 0, which raises it. -/
theorem arithmeticFaultExactly : Obligations.ArithmeticFaultExactly := by
  refine ⟨rfl, fun s hs => raised_iff stepCause_arithmeticFault ?_⟩
  rintro ⟨a, b, c, v, hmod, ha, hb, hc⟩
  rw [step_of_fetchInstr_ok hs hmod]
  exact exec_mod_of_divisor_zero ha hb hc

/-- Settles O42: the one cause of DecodeFault is the fetch rejecting the word at pc; no instruction raises it. -/
theorem decodeFaultExactly : Obligations.DecodeFaultExactly := by
  refine ⟨rfl, fun s hs => raised_iff (fun h => ?_) fun hword => ?_⟩
  · exact s.fetchInstr_unknownOpcode_iff.mp (stepCause_decodeFault h)
  · obtain ⟨w, hw⟩ := s.fetchInstr_unknownOpcode_iff.mpr hword
    exact step_of_fetchInstr_error hs hw

end Sys2Proof.Machine
end

section
/-! Encoding and decoding (spec/30_encoding sections 1 to 3): operand words and their classes are one to one, the
operand decoders by the number of words they read, and from these both directions of the round trip. -/

namespace Sys2Proof

/-! Operand words and their classes (R80). -/

theorem Operand.wf_ofWord (w : Word) : (Operand.ofWord w).wf = true := by
  obtain ⟨-, v, h, -⟩ | ⟨i, -, h⟩ | ⟨hw, h⟩ := Operand.ofWord_cases w
  · rw [h]; rfl
  · rw [h]; rfl
  · rw [h]; exact decide_eq_true hw

theorem Operand.ofWord_toWord {o : Operand} (h : o.wf = true) : Operand.ofWord o.toWord = o := by
  cases o with
  | lit v =>
    have hv : (v.setWidth 16).toNat = v.toNat := BitVec.toNat_setWidth_of_le (by decide)
    obtain ⟨x, hx, -, hxv⟩ := Operand.ofWord_of_le (w := v.setWidth 16) (by omega)
    rw [Operand.toWord, hx, BitVec.eq_of_toNat_eq (hxv.trans hv)]
  | reg i =>
    refine Operand.ofWord_of_selector (Nat.mod_eq_of_lt ?_)
    omega
  | invalid w => exact Operand.ofWord_of_ge (of_decide_eq_true h)

/-! The operand decoders on the words of well-formed operands (R64). -/

section ToWord

variable {a b c : Operand} (ha : a.wf = true) (hb : b.wf = true) (hc : c.wf = true) (rest : List Word)
include ha

theorem decode1_toWord (f : Operand → Instr) : decode1 f (a.toWord :: rest) = .ok (f a, rest) := by
  rw [decode1, Operand.ofWord_toWord ha]

include hb

theorem decode2_toWord (f : Operand → Operand → Instr) :
    decode2 f (a.toWord :: b.toWord :: rest) = .ok (f a b, rest) := by
  rw [decode2, Operand.ofWord_toWord ha, Operand.ofWord_toWord hb]

include hc

theorem decode3_toWord (f : Operand → Operand → Operand → Instr) :
    decode3 f (a.toWord :: b.toWord :: c.toWord :: rest) = .ok (f a b c, rest) := by
  rw [decode3, Operand.ofWord_toWord ha, Operand.ofWord_toWord hb, Operand.ofWord_toWord hc]

end ToWord

theorem decodeOperands_toWord {i : Instr} (h : ∀ o ∈ i.operands, o.wf = true) (rest : List Word) :
    decodeOperands i.opcode (i.operands.map Operand.toWord ++ rest) = .ok (i, rest) := by
  cases i with
  | halt | ret | noop => rfl
  | push a | pop a | jmp a | call a | out a | inp a => exact decode1_toWord (h a (.head _)) rest _
  | set a b | jt a b | jf a b | not a b | rmem a b | wmem a b =>
    exact decode2_toWord (h a (.head _)) (h b (.tail _ (.head _))) rest _
  | eq a b c | gt a b c | add a b c | mult a b c | mod a b c | and a b c | or a b c =>
    exact decode3_toWord (h a (.head _)) (h b (.tail _ (.head _))) (h c (.tail _ (.tail _ (.head _)))) rest _

/-- Settles O2: the opcode word is found again, and then each operand word. -/
theorem decodeEncodeRoundTrip : Obligations.DecodeEncodeRoundTrip := by
  intro i rest hwf
  have hoperands : decodeOperands i.opcode (i.operands.map Operand.toWord ++ rest) = .ok (i, rest) :=
    decodeOperands_toWord (List.all_eq_true.mp hwf) rest
  rw [encode, List.cons_append, decode, opcodeOfWord_opcodeNumber]
  exact hoperands

/-! What an operand decoder that answers has read (R64). -/

section Inversion

variable {ws rest : List Word} {i : Instr}

theorem decode1_eq_ok {f : Operand → Instr} (h : decode1 f ws = .ok (i, rest)) :
    ∃ a, i = f (.ofWord a) ∧ ws = a :: rest := by
  match ws, h with
  | a :: _, h => cases h; exact ⟨a, rfl, rfl⟩

theorem decode2_eq_ok {f : Operand → Operand → Instr} (h : decode2 f ws = .ok (i, rest)) :
    ∃ a b, i = f (.ofWord a) (.ofWord b) ∧ ws = a :: b :: rest := by
  match ws, h with
  | a :: b :: _, h => cases h; exact ⟨a, b, rfl, rfl⟩

theorem decode3_eq_ok {f : Operand → Operand → Operand → Instr} (h : decode3 f ws = .ok (i, rest)) :
    ∃ a b c, i = f (.ofWord a) (.ofWord b) (.ofWord c) ∧ ws = a :: b :: c :: rest := by
  match ws, h with
  | a :: b :: c :: _, h => cases h; exact ⟨a, b, c, rfl, rfl⟩

/-- The instruction has the opcode asked for, and its operands are the classes of the words read. -/
theorem decodeOperands_eq_ok {op : Opcode} (h : decodeOperands op ws = .ok (i, rest)) :
    i.opcode = op ∧ ∃ vs, i.operands = vs.map Operand.ofWord ∧ ws = vs ++ rest := by
  cases op with
  | halt | ret | noop => cases h; exact ⟨rfl, [], rfl, rfl⟩
  | push | pop | jmp | call | out | inp =>
    obtain ⟨a, rfl, rfl⟩ := decode1_eq_ok h
    exact ⟨rfl, [a], rfl, rfl⟩
  | set | jt | jf | not | rmem | wmem =>
    obtain ⟨a, b, rfl, rfl⟩ := decode2_eq_ok h
    exact ⟨rfl, [a, b], rfl, rfl⟩
  | eq | gt | add | mult | mod | and | or =>
    obtain ⟨a, b, c, rfl, rfl⟩ := decode3_eq_ok h
    exact ⟨rfl, [a, b, c], rfl, rfl⟩

end Inversion

theorem Instr.wf_of_operands {i : Instr} {vs : List Word} (h : i.operands = vs.map Operand.ofWord) :
    i.wf = true := by
  rw [Instr.wf, h, List.all_map]
  exact List.all_eq_true.mpr fun w _ => Operand.wf_ofWord w

theorem decode_eq_ok {ws rest : List Word} {i : Instr} (h : decode ws = .ok (i, rest)) :
    ∃ w ws', ws = w :: ws' ∧ opcodeOfWord w = some i.opcode ∧ decodeOperands i.opcode ws' = .ok (i, rest) := by
  cases ws with
  | nil => cases h
  | cons w ws' =>
    cases hop : opcodeOfWord w with
    | none => rw [decode, hop] at h; cases h
    | some op =>
      rw [decode, hop] at h
      obtain ⟨rfl, -⟩ := decodeOperands_eq_ok h
      exact ⟨w, ws', rfl, hop, h⟩

/-- Settles O3: the opcode word is the number of the opcode it names, and each operand word is kept by its class. -/
theorem decodedWordsAreTheEncoding : Obligations.DecodedWordsAreTheEncoding := by
  intro ws rest i h
  obtain ⟨w, ws', rfl, hop, hd⟩ := decode_eq_ok h
  obtain ⟨-, vs, hvs, rfl⟩ := decodeOperands_eq_ok hd
  refine ⟨Instr.wf_of_operands hvs, ?_⟩
  rw [encode_of_operands hvs, opcodeNumber_of_opcodeOfWord hop, List.cons_append]

/-- Settles O1: the decoder and the opcode map, evaluated on the spec's examples. -/
theorem specWordsDecode : Obligations.SpecWordsDecode := by
  refine ⟨rfl, ?_⟩
  decide

end Sys2Proof
end

section
/-! What an instruction can have done to the state when it answers a next state, one constructor per shape, and from it
every frame (spec/10_state sections 2 to 6). -/

namespace Sys2Proof.Machine

/-- The eight ALU instructions (42_arithmetic_logic). -/
def aluOpcodes : List Opcode := [.add, .mult, .mod, .and, .or, .not, .eq, .gt]

/-- `Effect s i t`: running `i` from `s` may leave `t`. The shapes are those of the rules: what was written, pushed,
popped or transferred, pc after it, and the checks a commit rests on; the values moved are left open. -/
inductive Effect (s : State) : Instr → State → Prop
  | raise {i : Instr} (k : FailKind) : Effect s i (s.raise k)
  | halt : Effect s .halt s.halt
  | write {i : Instr} {a : Operand} {v : Word} (hdst : destination i = some a) (hcell : storeAddress i s = cellOf a)
      (hclean : i.opcode ∈ aluOpcodes → v.toNat ≤ 32767) : Effect s i ((s.wrOp a v).advance i.length)
  | store {a b : Operand} {e : Word} (v : Word) (he : s.rdOp a = .ok e) (hlt : e.toNat < 32768) :
      Effect s (.wmem a b) ((s.memWrite e.toNat v).advance 3)
  | push {a : Operand} (v : Word) : Effect s (.push a) ((s.push v).advance 2)
  | pop {a : Operand} {v : Word} (htop : s.top = .ok v) :
      Effect s (.pop a) ((s.popped.wrOp a v).advance 2)
  | advance {i : Instr} : Effect s i (s.advance i.length)
  | jump {i : Instr} {u : Word} (hlt : u.toNat < 32768) : Effect s i (s.jump u)
  | call {a : Operand} {u : Word} (hlt : u.toNat < 32768) : Effect s (.call a) ((s.push (s.pc + 2)).jump u)
  | ret {u : Word} (htop : s.top = .ok u) (hlt : u.toNat < 32768) :
      Effect s .ret (s.popped.jump u)
  | out {a : Operand} (v : Word) : Effect s (.out a) ((s.outAppend v).advance 2)
  | wait {a : Operand} (hempty : s.inq = []) : Effect s (.inp a) s.awaitInput
  | input {a : Operand} {ch : Word} {r : List Word} (hinq : s.inq = ch :: r) :
      Effect s (.inp a) ((s.inDequeue.wrOp a ch).advance 2)

/-! The results of the ALU are clean (R109). -/

theorem toNat_reduce_le (n : Nat) : (reduce n).toNat ≤ 32767 := by
  rw [reduce, BitVec.toNat_ofNat]
  omega

theorem toNat_and_mask (x : Word) : (x &&& 0x7FFF).toNat = x.toNat % 32768 := by
  rw [BitVec.toNat_and]
  exact Nat.and_two_pow_sub_one_eq_mod x.toNat 15

theorem toNat_and_mask_le (x : Word) : (x &&& 0x7FFF).toNat ≤ 32767 := by
  rw [toNat_and_mask]
  omega

theorem toNat_truthWord_le (p : Bool) : (truthWord p).toNat ≤ 32767 := by
  cases p <;> decide

theorem toNat_modWord_le {x y r : Word} (h : modWord x y = .ok r) : r.toNat ≤ 32767 := by
  unfold modWord at h
  split at h
  · cases h
  · cases h; exact toNat_reduce_le _

/-! From phase 1 (00_scope R11) to the effect. -/

/-- Whatever phase 1 commits satisfies `P`. -/
def Commits (P : State → Prop) (p : Except FailKind State) : Prop := ∀ u, p = .ok u → P u

section Phase1

variable {s t : State} {i : Instr}

theorem commits_ok {P : State → Prop} {u : State} (h : P u) : Commits P (.ok u) := by
  rintro _ ⟨⟩
  exact h

theorem commits_bind {α : Type} {P : State → Prop} {m : Except FailKind α} {f : α → Except FailKind State}
    (h : ∀ x, m = .ok x → Commits P (f x)) : Commits P (m >>= f) := by
  cases m with
  | ok x => exact h x rfl
  | error k => rintro _ ⟨⟩

theorem effect_of_complete {p : Except FailKind State} (hp : Commits (Effect s i) p) (h : s.complete p = .next t) :
    Effect s i t := by
  obtain hok | ⟨k, -, rfl⟩ := State.complete_cases h
  · exact hp t hok
  · exact .raise k

theorem effect_of_aluBinary {f : Word → Word → Except FailKind Word} {a b c : Operand}
    (hdst : destination i = some a) (hcell : storeAddress i s = cellOf a) (hlen : i.length = 4)
    (hf : ∀ x y r, f x y = .ok r → r.toNat ≤ 32767) (h : aluBinary f a b c s = .next t) : Effect s i t := by
  obtain ⟨vb, vc, r, -, -, -, hr, rfl⟩ | ⟨k, rfl⟩ := aluBinary_cases h
  · rw [← hlen]
    exact .write hdst hcell fun _ => hf vb vc r hr
  · exact .raise k

/-- The same for a result that cannot fail. -/
theorem effect_of_aluBinary_total {g : Word → Word → Word} {a b c : Operand} (hdst : destination i = some a)
    (hcell : storeAddress i s = cellOf a) (hlen : i.length = 4) (hg : ∀ x y, (g x y).toNat ≤ 32767)
    (h : aluBinary (fun x y => .ok (g x y)) a b c s = .next t) : Effect s i t :=
  effect_of_aluBinary hdst hcell hlen (fun x y r hr => by cases hr; exact hg x y) h

theorem effect_of_branch {p : Word → Bool} {a b : Operand} (hlen : i.length = 3) (h : branch p a b s = .next t) :
    Effect s i t := by
  obtain ⟨va, u, -, -, -, hlt, rfl⟩ | ⟨va, u, -, -, -, rfl⟩ | ⟨k, rfl⟩ := branch_cases h
  · exact .jump hlt
  · rw [← hlen]
    exact .advance
  · exact .raise k

end Phase1

/-! What a check that passed establishes. -/

theorem chkTarget_eq_ok {u : Word} (h : chkTarget u = .ok ()) : u.toNat < 32768 := by
  obtain ⟨-, hlt⟩ | ⟨herr, -⟩ := chkTarget_cases u
  · exact hlt
  · cases herr.symm.trans h

theorem chkAddr_eq_ok {e : Word} (h : chkAddr e = .ok ()) : e.toNat < 32768 := by
  obtain ⟨-, hlt⟩ | ⟨herr, -⟩ := chkAddr_cases e
  · exact hlt
  · cases herr.symm.trans h

theorem chkRegDst_eq_ok {a : Operand} {j : Fin 8} (h : chkRegDst a = .ok j) : a = .reg j := by
  cases a with
  | lit v => cases h
  | reg i => cases h; rfl
  | invalid w => cases h

theorem State.top_eq_ok {s : State} {v : Word} (h : s.top = .ok v) : ∃ r, s.stack = v :: r := by
  obtain ⟨w, r, hstack, htop⟩ | ⟨-, htop⟩ := s.top_cases
  · cases htop.symm.trans h; exact ⟨r, hstack⟩
  · cases htop.symm.trans h

/-! The single instructions whose commit takes more than their checks' results. -/

theorem effect_of_set {a b : Operand} {s t : State} (h : exec (.set a b) s = .next t) : Effect s (.set a b) t := by
  refine effect_of_complete (commits_bind fun j hj => commits_bind fun v _ => commits_ok ?_) h
  obtain rfl := chkRegDst_eq_ok hj
  exact .write (i := .set (.reg j) b) (a := .reg j) rfl rfl fun hop => absurd hop (by simp [Instr.opcode, aluOpcodes])

theorem effect_of_inp {a : Operand} {s t : State} (h : exec (.inp a) s = .next t) : Effect s (.inp a) t := by
  refine effect_of_complete (commits_bind fun _ _ => ?_) h
  split
  · next hempty => exact commits_ok (.wait hempty)
  · next ch r hinq => exact commits_ok (.input hinq)

/-- Everything an instruction can do: its checks passed and its commit, or a fatal condition. -/
theorem exec_effect {i : Instr} {s t : State} (h : exec i s = .next t) : Effect s i t := by
  cases i with
  | halt => exact effect_of_complete (commits_ok .halt) h
  | set a b => exact effect_of_set h
  | push a => exact effect_of_complete (commits_bind fun v _ => commits_ok (.push v)) h
  | pop a => exact effect_of_complete (commits_bind fun _ _ => commits_bind fun v hv => commits_ok (.pop hv)) h
  | eq a b c | gt a b c => exact effect_of_aluBinary_total rfl rfl rfl (fun _ _ => toNat_truthWord_le _) h
  | jmp a =>
    refine effect_of_complete (commits_bind fun _ _ => commits_bind fun _ hu => commits_ok ?_) h
    exact .jump (chkTarget_eq_ok hu)
  | jt a b | jf a b => exact effect_of_branch rfl h
  | add a b c | mult a b c => exact effect_of_aluBinary_total rfl rfl rfl (fun _ _ => toNat_reduce_le _) h
  | mod a b c => exact effect_of_aluBinary rfl rfl rfl (fun _ _ _ => toNat_modWord_le) h
  | and a b c | or a b c => exact effect_of_aluBinary_total rfl rfl rfl (fun _ _ => toNat_and_mask_le _) h
  | not a b =>
    exact effect_of_complete (commits_bind fun _ _ => commits_bind fun v _ =>
      commits_ok (.write (i := .not a b) rfl rfl fun _ => toNat_and_mask_le _)) h
  | rmem a b =>
    exact effect_of_complete (commits_bind fun _ _ => commits_bind fun e _ => commits_bind fun _ _ =>
      commits_ok (.write (i := .rmem a b) rfl rfl fun hop => absurd hop (by simp [Instr.opcode, aluOpcodes]))) h
  | wmem a b =>
    exact effect_of_complete (commits_bind fun e he => commits_bind fun v _ => commits_bind fun _ haddr =>
      commits_ok (.store v he (chkAddr_eq_ok haddr))) h
  | call a =>
    refine effect_of_complete (commits_bind fun _ _ => commits_bind fun _ hu => commits_ok ?_) h
    exact .call (chkTarget_eq_ok hu)
  | ret =>
    exact effect_of_complete (commits_bind fun u htop => commits_bind fun _ hu =>
      commits_ok (.ret htop (chkTarget_eq_ok hu))) h
  | out a => exact effect_of_complete (commits_bind fun v _ => commits_ok (.out v)) h
  | inp a => exact effect_of_inp h
  | noop => exact effect_of_complete (commits_ok (.advance (i := .noop))) h

/-! What a destination write leaves unchanged (R83). -/

theorem State.wrOp_memRead_of_ne {s : State} {a : Operand} {x : Nat} (v : Word) (h : cellOf a ≠ some x) :
    (s.wrOp a v).memRead x = s.memRead x := by
  cases a with
  | lit w => rw [State.wrOp_lit, State.memRead_memWrite, if_neg fun hx => h (congrArg some hx.symm)]
  | reg i => rfl
  | invalid w => rfl

theorem State.wrOp_regs_of_ne {s : State} {a : Operand} {j : Fin 8} (v : Word) (h : registerOf a ≠ some j) :
    (s.wrOp a v).regs[j] = s.regs[j] := by
  cases a with
  | lit w => rfl
  | reg i => rw [State.wrOp_reg, State.getElem_setReg_regs, if_neg fun hj => h (congrArg some hj.symm)]
  | invalid w => rfl

theorem State.wrOp_memRead_eq_or (s : State) (a : Operand) (v : Word) (x : Nat) :
    (s.wrOp a v).memRead x = s.memRead x ∨ (s.wrOp a v).memRead x = v := by
  cases a with
  | lit w =>
    rw [State.wrOp_lit, State.memRead_memWrite]
    split
    · exact .inr rfl
    · exact .inl rfl
  | reg i => exact .inl rfl
  | invalid w => exact .inl rfl

theorem State.wrOp_regs_eq_or (s : State) (a : Operand) (v : Word) (j : Fin 8) :
    (s.wrOp a v).regs[j] = s.regs[j] ∨ (s.wrOp a v).regs[j] = v := by
  cases a with
  | lit w => exact .inl rfl
  | reg i =>
    rw [State.wrOp_reg, State.getElem_setReg_regs]
    split
    · exact .inr rfl
    · exact .inl rfl
  | invalid w => exact .inl rfl

/-! The frames. -/

/-- Settles O32: a cell changes only by a destination write or by `wmem`'s store, both at the store address. -/
theorem memoryFrame : Obligations.MemoryFrame := by
  intro i s t h x hx
  cases exec_effect h with
  | write _ hcell _ => exact State.wrOp_memRead_of_ne _ (hcell ▸ hx)
  | @store a b e v he _ =>
    have hstore : storeAddress (.wmem a b) s = some e.toNat := by simp [storeAddress, he, Except.toOption]
    have hne : x ≠ e.toNat := fun hxe => hx (hstore.trans (congrArg some hxe.symm))
    exact (s.memRead_memWrite e.toNat x v).trans (if_neg hne)
  | pop _ => exact State.wrOp_memRead_of_ne (s := s.popped) _ hx
  | input _ => exact State.wrOp_memRead_of_ne (s := s.inDequeue) _ hx
  | wait _ => exact congrArg (Memory.read · x) s.awaitInput_mem
  | raise _ | halt | push _ | advance | jump _ | call _ | ret _ _ | out _ => rfl

/-- Settles O33: a register changes only by a destination write, and then the destination's. -/
theorem registerFrame : Obligations.RegisterFrame := by
  intro i s t h j hj
  cases exec_effect h with
  | write hdst _ _ => exact State.wrOp_regs_of_ne _ (by simpa [writtenRegister, hdst] using hj)
  | pop _ => exact State.wrOp_regs_of_ne (s := s.popped) _ hj
  | input _ => exact State.wrOp_regs_of_ne (s := s.inDequeue) _ hj
  | wait _ => exact congrArg (·[j]) s.awaitInput_regs
  | raise _ | halt | store _ _ _ | push _ | advance | jump _ | call _ | ret _ _ | out _ => rfl

/-- Settles O34: `push` and `call` push one entry, `pop` and `ret` pop one, and no other shape touches the stack. -/
theorem stackFrame : Obligations.StackFrame := by
  intro i s t h
  cases exec_effect h with
  | push v => exact .inr (.inl ⟨.head _, v, rfl⟩)
  | call _ => exact .inr (.inl ⟨.tail _ (.head _), s.pc + 2, rfl⟩)
  | @pop a v htop =>
    obtain ⟨r, hstack⟩ := State.top_eq_ok htop
    exact .inr (.inr ⟨.head _, v, by simp [hstack]⟩)
  | @ret u htop _ =>
    obtain ⟨r, hstack⟩ := State.top_eq_ok htop
    exact .inr (.inr ⟨.tail _ (.head _), u, by simp [hstack]⟩)
  | write _ _ _ => exact .inl (s.wrOp_stack _ _)
  | input _ => exact .inl (s.inDequeue.wrOp_stack _ _)
  | wait _ => exact .inl s.awaitInput_stack
  | raise _ | halt | store _ _ _ | advance | jump _ | out _ => exact .inl rfl

/-- Settles O35: `out` appends one element, `in` takes the oldest or waits, and no other shape touches a stream. -/
theorem streamFrame : Obligations.StreamFrame := by
  intro i s t h
  cases exec_effect h with
  | out v => exact ⟨.inr ⟨rfl, v, rfl⟩, .inl ⟨rfl, rfl⟩⟩
  | wait hempty => exact ⟨.inl s.awaitInput_out, .inr ⟨rfl, .inr hempty⟩⟩
  | @input a ch r hinq => exact ⟨.inl (s.inDequeue.wrOp_out _ _), .inr ⟨rfl, .inl ⟨ch, by simp [hinq]⟩⟩⟩
  | write _ _ _ => exact ⟨.inl (s.wrOp_out _ _), .inl ⟨s.wrOp_inq _ _, s.wrOp_hostTurns _ _⟩⟩
  | pop _ => exact ⟨.inl (s.popped.wrOp_out _ _), .inl ⟨s.popped.wrOp_inq _ _, s.popped.wrOp_hostTurns _ _⟩⟩
  | raise _ | halt | store _ _ _ | push _ | advance | jump _ | call _ | ret _ _ => exact ⟨.inl rfl, .inl ⟨rfl, rfl⟩⟩

/-- Settles O36: only `halt` and a fatal condition touch STATUS, and these touch nothing else. -/
theorem statusFrame : Obligations.StatusFrame := by
  intro i s t h
  cases exec_effect h with
  | raise k => exact .inr (.inr ⟨k, rfl⟩)
  | halt => exact .inr (.inl ⟨rfl, rfl⟩)
  | write _ _ _ => exact .inl (s.wrOp_status _ _)
  | pop _ => exact .inl (s.popped.wrOp_status _ _)
  | input _ => exact .inl (s.inDequeue.wrOp_status _ _)
  | wait _ => exact .inl s.awaitInput_status
  | store _ _ _ | push _ | advance | jump _ | call _ | ret _ _ | out _ => exact .inl rfl

/-- Settles O19: an ALU instruction writes one result, which is clean; a fatal condition writes nothing. -/
theorem aluResultsAreClean : Obligations.AluResultsAreClean := by
  intro i s t halu h
  cases exec_effect h with
  | write _ _ hclean =>
    have hv := hclean halu
    refine ⟨fun j => ?_, fun x => ?_⟩
    · exact (s.wrOp_regs_eq_or _ _ j).imp_right fun hj => (congrArg BitVec.toNat hj).trans_le hv
    · exact (s.wrOp_memRead_eq_or _ _ x).imp_right fun hx => (congrArg BitVec.toNat hx).trans_le hv
  | raise _ | advance | jump _ => exact ⟨fun _ => .inl rfl, fun _ => .inl rfl⟩
  | halt | store _ _ _ | push _ | pop _ | call _ | ret _ _ | out _ | wait _ | input _ =>
    simp [Instr.opcode] at halu

end Sys2Proof.Machine
end

section
/-! What every step keeps, from every state or along a run (spec/10_state sections 3 to 5, 60_exceptions section 2,
70_reset section 5). -/

namespace Sys2Proof.Machine

/-! An instruction that was fetched keeps the invariant. -/

theorem State.fits_of_fetchInstr_ok {s : State} {i : Instr} (h : s.fetchInstr = .ok i) : Fits s i.length := by
  obtain ⟨-, hf⟩ | ⟨-, -, hf⟩ | ⟨-, op, -, ⟨j, hf, -, hfits⟩ | ⟨hf, -⟩⟩ := s.fetchInstr_cases
  · cases hf.symm.trans h
  · cases hf.symm.trans h
  · cases hf.symm.trans h; exact hfits
  · cases hf.symm.trans h

theorem toNat_pcPlus {s : State} {n : Nat} (h : Fits s n) : (pcPlus s n).toNat = s.pc.toNat + n := by
  rw [pcPlus, BitVec.toNat_ofNat]
  omega

/-- The advance of an instruction that fits ends at 32768 at most: pc does not wrap (R30). -/
theorem State.toNat_advance_pc_le {s : State} {n : Nat} (h : Fits s n) : (s.advance n).pc.toNat ≤ 32768 := by
  rw [State.advance_eq, toNat_pcPlus h]
  exact h

theorem Effect.mem_wf {s t : State} {i : Instr} (h : Effect s i t) (hwf : s.mem.wf = true) : t.mem.wf = true := by
  cases h with
  | write _ _ _ => exact State.wrOp_wf hwf _ _
  | store v _ hlt => exact Memory.wf_write v hwf hlt
  | pop _ => exact State.wrOp_wf (s := s.popped) hwf _ _
  | input _ => exact State.wrOp_wf (s := s.inDequeue) hwf _ _
  | wait _ => rw [s.awaitInput_mem]; exact hwf
  | raise _ | halt | push _ | advance | jump _ | call _ | ret _ _ | out _ => exact hwf

theorem Effect.pc_le {s t : State} {i : Instr} (h : Effect s i t) (hfits : Fits s i.length) :
    t.pc.toNat ≤ 32768 := by
  have hpc : s.pc.toNat ≤ 32768 := by omega
  cases h with
  | jump hlt | call hlt | ret _ hlt => exact hlt.le
  | write _ _ _ => exact State.toNat_advance_pc_le (by rwa [Fits, s.wrOp_pc])
  | pop _ => exact State.toNat_advance_pc_le (by rwa [Fits, s.popped.wrOp_pc])
  | input _ => exact State.toNat_advance_pc_le (by rwa [Fits, s.inDequeue.wrOp_pc])
  | store _ _ _ | push _ | advance | out _ => exact State.toNat_advance_pc_le hfits
  | wait _ => rw [s.awaitInput_pc]; exact hpc
  | raise _ | halt => exact hpc

/-- Settles O47: a rejected fetch changes STATUS alone; a fetched instruction fits below 32768, and every cell it can
store to exists. -/
theorem stepKeepsInvariant : Obligations.StepKeepsInvariant := by
  intro s t ⟨hwf, hpc⟩ hstep
  obtain ⟨-, ⟨i, hi, hexec⟩ | ⟨e, -, rfl⟩⟩ := step_cases hstep
  · have heffect := exec_effect hexec
    exact ⟨heffect.mem_wf hwf, heffect.pc_le (State.fits_of_fetchInstr_ok hi)⟩
  · exact ⟨hwf, hpc⟩

/-- Settles O48: no cell is listed, and pc is 0. -/
theorem resetMeetsInvariant : Obligations.ResetMeetsInvariant := ⟨reset_mem_wf, by decide⟩

theorem State.boot_eq_some {image preseed : List Word} {s : State} (h : State.boot image preseed = some s) :
    image.length ≤ 32768 ∧ s = { State.reset with mem := Memory.writeWords [] 0 image, inq := preseed } := by
  unfold State.boot at h
  split at h
  · next hle => cases h; exact ⟨hle, rfl⟩
  · cases h

/-- Settles O49: the image is written to cells that exist, and pc is reset's. -/
theorem bootMeetsInvariant : Obligations.BootMeetsInvariant := by
  intro image preseed s h
  obtain ⟨hle, rfl⟩ := State.boot_eq_some h
  obtain ⟨hwf, hpc⟩ := resetMeetsInvariant
  exact ⟨Memory.wf_writeWords hwf (by omega), hpc⟩

/-! The Output Stream only grows. -/

theorem step_out_prefix {s t : State} (h : step s = .next t) : s.out <+: t.out := by
  obtain ⟨-, ⟨i, -, hexec⟩ | ⟨e, -, rfl⟩⟩ := step_cases h
  · obtain ⟨hsame | ⟨-, v, happend⟩, -⟩ := streamFrame i s t hexec
    · rw [hsame]
    · exact ⟨[v], happend.symm⟩
  · exact List.prefix_rfl

theorem coreRun_succ_eq_next {M : Host.Core} {k : Nat} {s t : M.State} (h : M.run (k + 1) s = .next t) :
    ∃ u, M.step s = .next u ∧ M.run k u = .next t := by
  rw [Host.Core.run] at h
  split at h
  · next u hu => exact ⟨u, hu, h⟩
  · cases h
  · cases h

/-- Settles O50, by induction on the number of steps. -/
theorem outputOnlyGrows : Obligations.OutputOnlyGrows := by
  intro k
  induction k with
  | zero => intro s t h; cases h; exact List.prefix_rfl
  | succ k ih =>
    intro s t h
    obtain ⟨u, hstep, hrun⟩ := coreRun_succ_eq_next h
    exact (step_out_prefix hstep).trans (ih u t hrun)

/-! Progress and precision. -/

theorem exec_eq_complete (i : Instr) (s : State) : ∃ p, exec i s = s.complete p := by
  cases i with
  | halt => exact ⟨.ok s.halt, rfl⟩
  | noop => exact ⟨.ok (s.advance 1), rfl⟩
  | _ => exact ⟨_, rfl⟩

/-- Settles O46: a rejected fetch is taken, and every instruction has the two-phase form, which always answers. -/
theorem runningStateHasNext : Obligations.RunningStateHasNext := by
  intro s hs
  cases hi : s.fetchInstr with
  | ok i =>
    obtain ⟨p, hp⟩ := exec_eq_complete i s
    rw [step_of_fetchInstr_ok hs hi, hp]
    exact s.complete_next p
  | error e => exact ⟨_, step_of_fetchInstr_error hs hi⟩

/-- Settles O44: what a step can raise, it raises precisely. -/
theorem fatalConditionsArePrecise : Obligations.FatalConditionsArePrecise := by
  intro s t k hstep hk
  obtain ⟨h, -⟩ := step_raisesOnly s t k hstep hk
  exact h

end Sys2Proof.Machine
end

section
/-! The checks of an instruction's rule on raw words (spec/40_address_normalizer): in phase 1 (00_scope R11) each check
either passes on its value or ends in AddressFault, and a commit is put in the vocabulary of claims. -/

namespace Sys2Proof.Machine

section Phase1

variable {α : Type} {s : State} {w : Word}

/-! A check that passes. -/

theorem rdOp_bind_of_usable {f : Word → Except FailKind α} (h : Usable w) :
    (s.rdOp (.ofWord w) >>= f) = f (valueOf s w) := by
  rw [s.rdOp_of_usable h]; rfl

theorem chkDst_bind_of_usable {f : Unit → Except FailKind α} (h : Usable w) : (chkDst (.ofWord w) >>= f) = f () := by
  rw [chkDst_of_usable h]; rfl

theorem chkRegDst_bind_of_selector {i : Fin 8} {f : Fin 8 → Except FailKind α} (h : w.toNat = 32768 + i.val) :
    (chkRegDst (.ofWord w) >>= f) = f i := by
  rw [Operand.ofWord_of_selector h]; rfl

theorem chkAddr_bind_of_le {e : Word} {f : Unit → Except FailKind α} (h : e.toNat ≤ 32767) :
    (chkAddr e >>= f) = f () := by
  rw [chkAddr, if_pos (by omega)]; rfl

theorem chkTarget_bind_of_le {u : Word} {f : Unit → Except FailKind α} (h : u.toNat ≤ 32767) :
    (chkTarget u >>= f) = f () := by
  rw [chkTarget, if_pos (by omega)]; rfl

/-! AddressFault, at this check or, when it passes, after it. -/

theorem rdOp_bind_eq_addressFault {f : Word → Except FailKind α}
    (h : Usable w → f (valueOf s w) = .error .addressFault) :
    (s.rdOp (.ofWord w) >>= f) = .error .addressFault := by
  by_cases hw : Usable w
  · rw [rdOp_bind_of_usable hw, h hw]
  · rw [s.rdOp_of_not_usable hw]; rfl

theorem chkDst_bind_eq_addressFault {f : Unit → Except FailKind α} (h : Usable w → f () = .error .addressFault) :
    (chkDst (.ofWord w) >>= f) = .error .addressFault := by
  by_cases hw : Usable w
  · rw [chkDst_bind_of_usable hw, h hw]
  · rw [chkDst_of_not_usable hw]; rfl

theorem chkRegDst_bind_eq_addressFault {f : Fin 8 → Except FailKind α}
    (h : Selects w → ∀ i, f i = .error .addressFault) : (chkRegDst (.ofWord w) >>= f) = .error .addressFault := by
  rcases Operand.ofWord_cases w with ⟨-, v, hw, -⟩ | ⟨i, hsel, hw⟩ | ⟨-, hw⟩ <;> rw [hw]
  · rfl
  · exact h (by omega) i
  · rfl

theorem chkAddr_bind_of_gt {e : Word} {f : Unit → Except FailKind α} (h : 32767 < e.toNat) :
    (chkAddr e >>= f) = .error .addressFault := by
  rw [chkAddr, if_neg (by omega)]; rfl

theorem chkTarget_bind_of_gt {u : Word} {f : Unit → Except FailKind α} (h : 32767 < u.toNat) :
    (chkTarget u >>= f) = .error .addressFault := by
  rw [chkTarget, if_neg (by omega)]; rfl

end Phase1

/-! Both outcomes of the two-phase form, and a completed destination write. -/

theorem State.complete_of_error {s : State} {p : Except FailKind State} {k : FailKind} (h : p = .error k) :
    s.complete p = .next (s.raise k) := by
  rw [h, State.complete_error]

theorem State.complete_of_ok {s t : State} {p : Except FailKind State} (h : p = .ok t) : s.complete p = .next t := by
  rw [h, State.complete_ok]

theorem State.wrOp_advance_of_usable (s : State) {w : Word} (v : Word) (n : Nat) (h : Usable w) :
    (s.wrOp (.ofWord w) v).advance n = { stored s w v with pc := pcPlus s n } := by
  rw [s.wrOp_of_usable v h, State.advance_eq]
  simp only [pcPlus, stored_pc]

/-- A destination write does not see the Input Queue. -/
theorem stored_withInq (s : State) (q : List Word) (w v : Word) :
    stored { s with inq := q } w v = { stored s w v with inq := q } := by
  unfold stored
  split <;> rfl

end Sys2Proof.Machine
end

section
/-! `set`, `rmem` and `wmem` (spec/41_data_movement R90, R93, R94), and what they leave to be read. -/

namespace Sys2Proof.Machine

/-- Settles O6: the destination is checked to be a selector, then the source. -/
theorem setWritesRegister : Obligations.SetWritesRegister := by
  intro s a b _
  refine ⟨encode_of_operands (ws := [a, b]) rfl, fun hinv => ?_, fun i ha hb => ?_⟩
  · exact State.complete_of_error <| chkRegDst_bind_eq_addressFault fun hsel i =>
      rdOp_bind_eq_addressFault fun hb => absurd ⟨hsel, hb⟩ hinv
  · have hcommit := (s.setReg i (valueOf s b)).advance_eq 3
    exact State.complete_of_ok <| (chkRegDst_bind_of_selector ha).trans <| (rdOp_bind_of_usable hb).trans <|
      congrArg Except.ok hcommit

theorem exec_rmem_of_usable {s : State} {a b : Word} (ha : Usable a) (hb : Usable b)
    (he : (valueOf s b).toNat ≤ 32767) :
    exec (.rmem (.ofWord a) (.ofWord b)) s =
      .next { stored s a (s.memRead (valueOf s b).toNat) with pc := pcPlus s 3 } := by
  rw [← s.wrOp_advance_of_usable _ 3 ha]
  exact State.complete_of_ok <| (chkDst_bind_of_usable ha).trans <| (rdOp_bind_of_usable hb).trans <|
    chkAddr_bind_of_le he

theorem exec_wmem_of_usable {s : State} {a b : Word} (ha : Usable a) (hb : Usable b)
    (he : (valueOf s a).toNat ≤ 32767) :
    exec (.wmem (.ofWord a) (.ofWord b)) s =
      .next { s with mem := s.mem.write (valueOf s a).toNat (valueOf s b), pc := pcPlus s 3 } := by
  have hcommit := (s.memWrite (valueOf s a).toNat (valueOf s b)).advance_eq 3
  exact State.complete_of_ok <| (rdOp_bind_of_usable ha).trans <| (rdOp_bind_of_usable hb).trans <|
    (chkAddr_bind_of_le he).trans (congrArg Except.ok hcommit)

/-- Settles O9, by the checks in their order: the destination's class, the address operand's, the address. -/
theorem rmemReadsCell : Obligations.RmemReadsCell := by
  intro s a b _
  refine ⟨encode_of_operands (ws := [a, b]) rfl, fun hfault => ?_, fun ha hb he => exec_rmem_of_usable ha hb he⟩
  exact State.complete_of_error <| chkDst_bind_eq_addressFault fun ha => rdOp_bind_eq_addressFault fun hb =>
    chkAddr_bind_of_gt (hfault.resolve_left (not_not_intro ⟨ha, hb⟩))

/-- Settles O10, by the checks in their order: both operands' classes, then the address. -/
theorem wmemWritesCell : Obligations.WmemWritesCell := by
  intro s a b _
  refine ⟨encode_of_operands (ws := [a, b]) rfl, fun hfault => ?_, fun ha hb he => exec_wmem_of_usable ha hb he⟩
  exact State.complete_of_error <| rdOp_bind_eq_addressFault fun ha => rdOp_bind_eq_addressFault fun hb =>
    chkAddr_bind_of_gt (hfault.resolve_left (not_not_intro ⟨ha, hb⟩))

end Sys2Proof.Machine
end

section
/-! The other ALU instructions (spec/42_arithmetic_logic R103 to R108): their results as functions of numbers. -/

namespace Sys2Proof.Machine

/-- The mask to 15 bits is the remainder modulo 32768 (R109). -/
theorem and_mask_eq_reduce (x : Word) : x &&& 0x7FFF = reduce x.toNat := by
  refine BitVec.eq_of_toNat_eq ?_
  rw [toNat_and_mask, reduce, BitVec.toNat_ofNat]
  omega

theorem andWord_eq (x y : Word) : andWord x y = BitVec.ofNat 16 ((x.toNat &&& y.toNat) % 32768) := by
  rw [andWord, and_mask_eq_reduce, reduce, BitVec.toNat_and]

theorem orWord_eq (x y : Word) : orWord x y = BitVec.ofNat 16 ((x.toNat ||| y.toNat) % 32768) := by
  rw [orWord, and_mask_eq_reduce, reduce, BitVec.toNat_or]

theorem notWord_eq (x : Word) : notWord x = BitVec.ofNat 16 (32767 - x.toNat % 32768) := by
  have hcomplement : (65535 - x.toNat) % 32768 = 32767 - x.toNat % 32768 := by omega
  rw [notWord, and_mask_eq_reduce, reduce, BitVec.toNat_not]
  exact congrArg (BitVec.ofNat 16) hcomplement

theorem truthWord_eq (p : Prop) [Decidable p] : truthWord (decide p) = BitVec.ofNat 16 (if p then 1 else 0) := by
  by_cases h : p <;> simp [truthWord, h]

theorem eqWord_eq (x y : Word) : eqWord x y = BitVec.ofNat 16 (if x.toNat = y.toNat then 1 else 0) := by
  rw [← truthWord_eq, eqWord, beq_eq_decide, decide_eq_decide.mpr BitVec.toNat_inj.symm]

theorem gtWord_eq (x y : Word) : gtWord x y = BitVec.ofNat 16 (if x.toNat > y.toNat then 1 else 0) :=
  truthWord_eq (x.toNat > y.toNat)

theorem modWord_of_ne_zero {x y : Word} (h : y ≠ 0) :
    modWord x y = .ok (BitVec.ofNat 16 (x.toNat % y.toNat % 32768)) := if_neg h

/-- Settles O13: `and` is the common shape, and `andWord` the AND of the numbers modulo 32768. -/
theorem andIsBitwise : Obligations.AndIsBitwise :=
  binaryRule_of_aluBinary (fun _ _ _ => rfl) (fun _ _ _ => rfl) (fun _ _ _ _ => rfl) andWord_eq

/-- Settles O14: `or` is the common shape, and `orWord` the OR of the numbers modulo 32768. -/
theorem orIsBitwise : Obligations.OrIsBitwise :=
  binaryRule_of_aluBinary (fun _ _ _ => rfl) (fun _ _ _ => rfl) (fun _ _ _ _ => rfl) orWord_eq

/-- Settles O15: `eq` is the common shape, and Words are equal when their numbers are. -/
theorem eqComparesWords : Obligations.EqComparesWords :=
  binaryRule_of_aluBinary (fun _ _ _ => rfl) (fun _ _ _ => rfl) (fun _ _ _ _ => rfl) eqWord_eq

/-- Settles O16: `gt` is the common shape, and compares the numbers. -/
theorem gtComparesUnsigned : Obligations.GtComparesUnsigned :=
  binaryRule_of_aluBinary (fun _ _ _ => rfl) (fun _ _ _ => rfl) (fun _ _ _ _ => rfl) gtWord_eq

/-- Settles O17: the common shape over a result that fails for the divisor 0. -/
theorem modGivesRemainder : Obligations.ModGivesRemainder := by
  intro s a b c _
  refine ⟨encode_of_operands (ws := [a, b, c]) rfl, fun hinv => ?_, fun ha hb hc hzero => ?_, fun ha hb hc hne => ?_⟩
  · exact aluBinary_of_not_usable hinv
  · have hdivisor : s.rdOp (.ofWord c) = .ok 0 := by rw [s.rdOp_of_usable hc, hzero]
    exact exec_mod_of_divisor_zero (chkDst_of_usable ha) (s.rdOp_of_usable hb) hdivisor
  · exact aluBinary_of_usable ha hb hc (modWord_of_ne_zero hne)

/-- Settles O18: both classes are checked, and `notWord` is the complement to 32767. -/
theorem notComplements15Bits : Obligations.NotComplements15Bits := by
  intro s a b _
  refine ⟨encode_of_operands (ws := [a, b]) rfl, fun hinv => ?_, fun ha hb => ?_⟩
  · exact State.complete_of_error <| chkDst_bind_eq_addressFault fun ha => rdOp_bind_eq_addressFault fun hb =>
      absurd ⟨ha, hb⟩ hinv
  · rw [← notWord_eq, ← s.wrOp_advance_of_usable _ 3 ha]
    exact State.complete_of_ok <| (chkDst_bind_of_usable ha).trans (rdOp_bind_of_usable hb)

end Sys2Proof.Machine
end

section
/-! Control flow (spec/43_control_flow R120 to R125): the transfers and their target checks, and `halt`. -/

namespace Sys2Proof.Machine

/-- Settles O20: the operand's class is checked, then the target's range. -/
theorem jmpSetsPc : Obligations.JmpSetsPc := by
  intro s a
  refine ⟨encode_of_operands (ws := [a]) rfl, fun hfault => ?_, fun ha hle => ?_⟩
  · exact State.complete_of_error <| rdOp_bind_eq_addressFault fun ha =>
      chkTarget_bind_of_gt (hfault.resolve_left (not_not_intro ha))
  · exact State.complete_of_ok <| (rdOp_bind_of_usable ha).trans (chkTarget_bind_of_le hle)

/-- An instruction that is the common shape over a condition obeys the rule of R121 and R122 for that condition. -/
theorem branchRule_of_branch {mk : Operand → Operand → Instr} {op : Opcode} {p : Word → Bool} {taken : Word → Prop}
    (hop : ∀ a b, (mk a b).opcode = op) (hoperands : ∀ a b, (mk a b).operands = [a, b])
    (hexec : ∀ a b s, exec (mk a b) s = branch p a b s) (hp : ∀ v, p v = true ↔ taken v) :
    Claims.BranchRule mk op taken := by
  intro s a b _
  rw [hexec]
  refine ⟨?_, fun hinv => ?_, fun ha hb ht hgt => ?_, fun ha hb ht hle => ?_, fun ha hb hnt => ?_⟩
  · rw [encode_of_operands (ws := [a, b]) (hoperands _ _), hop]
  · exact State.complete_of_error <| rdOp_bind_eq_addressFault fun ha => rdOp_bind_eq_addressFault fun hb =>
      absurd ⟨ha, hb⟩ hinv
  · exact State.complete_of_error <| (rdOp_bind_of_usable ha).trans <| (rdOp_bind_of_usable hb).trans <|
      (if_pos ((hp _).mpr ht)).trans (chkTarget_bind_of_gt hgt)
  · exact State.complete_of_ok <| (rdOp_bind_of_usable ha).trans <| (rdOp_bind_of_usable hb).trans <|
      (if_pos ((hp _).mpr ht)).trans (chkTarget_bind_of_le hle)
  · rw [← s.advance_eq 3]
    exact State.complete_of_ok <| (rdOp_bind_of_usable ha).trans <| (rdOp_bind_of_usable hb).trans <|
      if_neg fun ht => hnt ((hp _).mp ht)

/-- Settles O21: `jt` is the common shape over `isNonzero`. -/
theorem jtBranchesOnNonzero : Obligations.JtBranchesOnNonzero :=
  branchRule_of_branch (fun _ _ => rfl) (fun _ _ => rfl) (fun _ _ _ => rfl) fun _ => bne_iff_ne

/-- Settles O22: `jf` is the common shape over `isZero`. -/
theorem jfBranchesOnZero : Obligations.JfBranchesOnZero :=
  branchRule_of_branch (fun _ _ => rfl) (fun _ _ => rfl) (fun _ _ _ => rfl) fun _ => beq_iff_eq

/-- Settles O23: the operand's class is checked, then the target's range; the return address is where the advance by 2
would end. -/
theorem callPushesReturnAddress : Obligations.CallPushesReturnAddress := by
  intro s a _
  refine ⟨encode_of_operands (ws := [a]) rfl, fun hfault => ?_, fun ha hle => ?_⟩
  · exact State.complete_of_error <| rdOp_bind_eq_addressFault fun ha =>
      chkTarget_bind_of_gt (hfault.resolve_left (not_not_intro ha))
  · have hreturn : s.pc + 2 = pcPlus s 2 := congrArg State.pc (s.advance_eq 2)
    rw [← hreturn]
    exact State.complete_of_ok <| (rdOp_bind_of_usable ha).trans (chkTarget_bind_of_le hle)

theorem top_bind_of_cons {s : State} {u : Word} {r : List Word} {f : Word → Except FailKind State}
    (h : s.stack = u :: r) : (s.top >>= f) = f u := by
  rw [State.top_of_cons h]; rfl

/-- Settles O24, by the checks in their order: the stack, then the target's range. -/
theorem retPopsIntoPc : Obligations.RetPopsIntoPc := by
  refine ⟨encode_of_operands (ws := []) rfl, fun s =>
    ⟨fun hempty => ?_, fun u r hstack hgt => ?_, fun u r hstack hle => ?_⟩⟩
  · exact exec_ret_of_top_error (State.top_of_nil hempty)
  · exact State.complete_of_error <| (top_bind_of_cons hstack).trans (chkTarget_bind_of_gt hgt)
  · have hcommit : s.popped.jump u = { s with stack := r, pc := u } := by rw [State.popped_of_cons hstack]; rfl
    exact State.complete_of_ok <| (top_bind_of_cons hstack).trans <|
      (chkTarget_bind_of_le hle).trans (congrArg Except.ok hcommit)

/-- Settles O25: `halt` has no check. -/
theorem haltChangesStatusOnly : Obligations.HaltChangesStatusOnly :=
  ⟨encode_of_operands (ws := []) rfl, fun s => s.complete_ok s.halt⟩

/-- Settles O26: `ret` pops what `call` pushed, which is a target unless it is 32768. -/
theorem retResumesAfterCall : Obligations.RetResumesAfterCall := by
  intro s a hfits ha hle
  obtain ⟨-, -, hcall⟩ := callPushesReturnAddress s a hfits
  obtain ⟨-, hret⟩ := retPopsIntoPc
  obtain ⟨-, hfault, hresume⟩ := hret { s with stack := pcPlus s 2 :: s.stack, pc := valueOf s a }
  refine ⟨_, hcall ha hle, fun hin => hresume _ _ rfl ?_, fun htop => hfault _ _ rfl ?_⟩
  · rwa [toNat_pcPlus hfits]
  · rw [toNat_pcPlus hfits]
    omega

end Sys2Proof.Machine
end

section
/-! `out` and `in` (spec/44_io R130 to R133): the streams, the wait, and the refill that ends it. -/

namespace Sys2Proof.Machine

/-- Settles O27: the operand's class is the one check. -/
theorem outAppendsWord : Obligations.OutAppendsWord := by
  intro s a _
  refine ⟨encode_of_operands (ws := [a]) rfl, fun hinv => ?_, fun ha => ?_⟩
  · exact State.complete_of_error <| rdOp_bind_eq_addressFault fun ha => absurd ha hinv
  · have hcommit := (s.outAppend (valueOf s a)).advance_eq 2
    exact State.complete_of_ok <| (rdOp_bind_of_usable ha).trans (congrArg Except.ok hcommit)

theorem exec_inp_of_nil {s : State} {a : Operand} (ha : chkDst a = .ok ()) (h : s.inq = []) :
    exec (.inp a) s = .next s.awaitInput := by
  simp only [exec, execIn, ha, h]; rfl

theorem exec_inp_of_cons {s : State} {a : Operand} {ch : Word} {r : List Word} (ha : chkDst a = .ok ())
    (h : s.inq = ch :: r) : exec (.inp a) s = .next ((s.inDequeue.wrOp a ch).advance 2) := by
  simp only [exec, execIn, ha, h]; rfl

theorem exec_inp_of_usable {s : State} {a ch : Word} {r : List Word} (ha : Usable a) (h : s.inq = ch :: r) :
    exec (.inp (.ofWord a)) s = .next { stored s a ch with inq := r, pc := pcPlus s 2 } := by
  have hdequeue : s.inDequeue = { s with inq := r } := by rw [State.inDequeue, h, List.tail_cons]
  rw [exec_inp_of_cons (chkDst_of_usable ha) h, hdequeue, State.wrOp_advance_of_usable _ ch 2 ha, stored_withInq]
  rfl

/-- Settles O28: the destination's class is checked before the queue is looked at. -/
theorem inTakesOldestCode : Obligations.InTakesOldestCode := by
  intro s a _
  refine ⟨encode_of_operands (ws := [a]) rfl, fun hinv => ?_, fun ch r ha hinq => exec_inp_of_usable ha hinq⟩
  exact State.complete_of_error <| chkDst_bind_eq_addressFault fun ha => absurd ha hinv

/-- Settles O29: the host's turn is a refill with some line, or nothing. -/
theorem inWaitsOnEmptyQueue : Obligations.InWaitsOnEmptyQueue := by
  intro s a ha hempty
  rw [exec_inp_of_nil (chkDst_of_usable ha) hempty]
  obtain ⟨line, h⟩ | h := s.awaitInput_cases
  · refine ⟨line ++ [10], ?_, .inr ⟨line, rfl⟩⟩
    rw [h, State.refill, hempty]
    rfl
  · refine ⟨[], ?_, .inl rfl⟩
    rw [h, ← hempty]

/-- Settles O30: after a refill the queue holds the line and NEWLINE, of which `in` takes the first. -/
theorem inCompletesAfterRefill : Obligations.InCompletesAfterRefill := by
  intro s a ch line _ ha hempty
  have hrefill (l : List Word) : s.refill l = { s with inq := l ++ [10] } := by rw [State.refill, hempty]; rfl
  refine ⟨?_, ?_⟩
  · rw [hrefill, exec_inp_of_usable ha rfl, stored_withInq]; rfl
  · rw [hrefill, exec_inp_of_usable ha rfl, stored_withInq]; rfl

end Sys2Proof.Machine
end

section
/-! What a `wmem` leaves to be read, by `rmem` and by the fetch (spec/20_memory section 6, 41_data_movement R95). -/

namespace Sys2Proof.Machine

/-- What was written to a target is what the target then holds. -/
theorem contentOf_stored (s : State) (w v : Word) : contentOf (stored s w v) w = v := by
  unfold contentOf stored
  split
  · simp
  · exact (Memory.read_write s.mem w.toNat w.toNat v).trans (if_pos rfl)

/-- Settles O52: the cell `wmem` wrote is the one `rmem` reads, since no register changed between them. -/
theorem wmemRmemRoundTrip : Obligations.WmemRmemRoundTrip := by
  intro s a v d ha hv hd he
  have hread : (s.mem.write (valueOf s a).toNat (valueOf s v)).read (valueOf s a).toNat = valueOf s v :=
    (Memory.read_write _ _ _ _).trans (if_pos rfl)
  exact ⟨_, _, exec_wmem_of_usable ha hv he, exec_rmem_of_usable hd ha he, (contentOf_stored _ d _).trans hread⟩

/-- Settles O53: pc is advanced to the cell stored, which exists. -/
theorem storeIsSeenByNextFetch : Obligations.StoreIsSeenByNextFetch := by
  intro s a v ha hv hroom he
  have hpc : (pcPlus s 3).toNat = s.pc.toNat + 3 := toNat_pcPlus (by omega)
  refine ⟨_, exec_wmem_of_usable ha hv (by omega), ?_⟩
  have hlt : (pcPlus s 3).toNat < 32768 := by omega
  rw [State.fetchWords_eq hlt, List.head?_cons]
  exact congrArg some ((Memory.read_write _ _ _ _).trans (if_pos (hpc.trans he.symm)))

end Sys2Proof.Machine
end

section
/-! The cycle over the words at pc (spec/46_execution_loop R146): which instruction it runs, and what it does when the
instruction does not lie inside the Memory Bank. -/

namespace Sys2Proof

/-- How many operand words an opcode has (30_encoding R64). -/
def Opcode.arity : Opcode → Nat
  | .halt | .ret | .noop => 0
  | .push | .pop | .jmp | .call | .out | .inp => 1
  | .set | .jt | .jf | .not | .rmem | .wmem => 2
  | .eq | .gt | .add | .mult | .mod | .and | .or => 3

theorem Instr.length_eq (i : Instr) : i.length = 1 + i.opcode.arity := by
  cases i <;> rfl

theorem Instr.length_le_four (i : Instr) : i.length ≤ 4 := by
  have harity : i.opcode.arity ≤ 3 := by cases i.opcode <;> decide
  have hlength := i.length_eq
  omega

theorem Opcode.exists_instr (op : Opcode) : ∃ i : Instr, i.opcode = op := by
  obtain ⟨⟨i, rest⟩, h⟩ : ∃ p, decodeOperands op [0, 0, 0] = .ok p := by cases op <;> exact ⟨_, rfl⟩
  obtain ⟨hop, -⟩ := decodeOperands_eq_ok h
  exact ⟨i, hop⟩

theorem length_encode (i : Instr) : (encode i).length = i.length := by
  rw [encode, List.length_cons, List.length_map, Instr.length, Nat.add_comm]

end Sys2Proof

namespace Sys2Proof.Machine

/-- Words that the cells from an address on hold are the first words reached from it. -/
theorem Memory.words_eq_append {m : Memory} {ws : List Word} {a n : Nat} (hn : ws.length ≤ n)
    (ha : a + ws.length ≤ 32768) (h : ∀ k w, ws[k]? = some w → m.read (a + k) = w) :
    ∃ rest, m.words a n = ws ++ rest := by
  induction ws generalizing a n with
  | nil => exact ⟨_, rfl⟩
  | cons w ws ih =>
    rw [List.length_cons] at hn ha
    obtain ⟨n, rfl⟩ : ∃ k, n = k + 1 := ⟨n - 1, by omega⟩
    have hfirst : m.read a = w := h 0 w rfl
    obtain ⟨rest, hrest⟩ := ih (a := a + 1) (n := n) (by omega) (by omega) fun k v hk => by
      rw [Nat.add_assoc, Nat.add_comm 1 k]
      exact h (k + 1) v hk
    exact ⟨rest, by rw [Memory.words_succ m n (by omega), hfirst, hrest, List.cons_append]⟩

/-- Settles O37: such a fetch answers the instruction. -/
theorem stepRunsDecodedInstruction : Obligations.StepRunsDecodedInstruction := by
  intro s i rest hs hdecode
  have hfetch : s.fetchInstr = .ok i := by rw [State.fetchInstr, hdecode]; rfl
  exact step_of_fetchInstr_ok hs hfetch

/-- Settles O38: the words reached from pc begin with the encoding, so they decode to the instruction. -/
theorem stepRunsEncodedInstruction : Obligations.StepRunsEncodedInstruction := by
  intro s i hs hwf hfits hcells
  have hlen : (encode i).length = i.length := length_encode i
  have hfour : i.length ≤ 4 := i.length_le_four
  obtain ⟨rest, hwords⟩ : ∃ rest, s.fetchWords = encode i ++ rest :=
    Memory.words_eq_append (by omega) (by omega) hcells
  refine stepRunsDecodedInstruction s i rest hs ?_
  rw [hwords, decodeEncodeRoundTrip i rest hwf]

/-- An opcode at pc whose instruction does not fit is rejected: the opcode alone fixes the length (30_encoding R66). -/
theorem State.fetchInstr_of_not_fits {s : State} {i : Instr} (hpc : s.pc.toNat ≤ 32767)
    (hop : opcodeOfWord (s.memRead s.pc.toNat) = some i.opcode) (hfits : ¬ Fits s i.length) :
    s.fetchInstr = .error .missingOperand := by
  obtain ⟨hout, -⟩ | ⟨-, hnone, -⟩ | ⟨-, op, hop', ⟨j, -, hj, hjfits⟩ | ⟨hf, -⟩⟩ := s.fetchInstr_cases
  · omega
  · rw [hnone] at hop; cases hop
  · have hopcode : j.opcode = i.opcode := by rw [hj]; exact Option.some.inj (hop'.symm.trans hop)
    rw [j.length_eq, hopcode, ← i.length_eq] at hjfits
    exact absurd hjfits hfits
  · exact hf

theorem State.fetchInstr_of_beyond {s : State} (hpc : 32768 ≤ s.pc.toNat) :
    s.fetchInstr = .error .noOpcodeWord := by
  rw [State.fetchInstr, State.fetchWords, Memory.words_beyond _ _ hpc]
  rfl

/-- Settles O39: both fetches are rejected, and AddressFault is the fatal condition of either rejection. -/
theorem fetchBeyondMemoryFaults : Obligations.FetchBeyondMemoryFaults := by
  intro s hs
  exact ⟨fun hpc => step_of_fetchInstr_error hs (State.fetchInstr_of_beyond hpc),
    fun i hpc hop hfits => step_of_fetchInstr_error hs (State.fetchInstr_of_not_fits hpc hop hfits)⟩

end Sys2Proof.Machine
end

section
/-! AddressFault (spec/60_exceptions R164): for phase 1 (00_scope R11), check by check, exactly when it is raised; then
for every instruction, and for the cycle. -/

namespace Sys2Proof

def Operand.IsInvalid (a : Operand) : Prop := ∃ w, a = .invalid w

end Sys2Proof

namespace Sys2Proof.Machine

/-- The two-phase form over `p` takes AddressFault. -/
def TakesAddressFault (s : State) (p : Except FailKind State) : Prop := s.complete p = .next (s.raise .addressFault)

/-- When an instruction raises AddressFault for another reason than an Invalid operand word: `set`'s literal destination
(R85), an address (R86) or the target of a transfer that is made (R87) above 32767. -/
def rangeCause (s : State) : Instr → Prop
  | .set a _ => ∃ v, a = .lit v
  | .rmem _ b => ∃ e, s.rdOp b = .ok e ∧ 32767 < e.toNat
  | .wmem a _ => ∃ e, s.rdOp a = .ok e ∧ 32767 < e.toNat
  | .jmp a | .call a => ∃ t, s.rdOp a = .ok t ∧ 32767 < t.toNat
  | .jt a b => ∃ v t, s.rdOp a = .ok v ∧ s.rdOp b = .ok t ∧ v ≠ 0 ∧ 32767 < t.toNat
  | .jf a b => ∃ v t, s.rdOp a = .ok v ∧ s.rdOp b = .ok t ∧ v = 0 ∧ 32767 < t.toNat
  | .ret => ∃ t, s.stack.head? = some t ∧ 32767 < t.toNat
  | .halt | .push _ | .pop _ | .eq _ _ _ | .gt _ _ _ | .add _ _ _ | .mult _ _ _ | .mod _ _ _ | .and _ _ _
  | .or _ _ _ | .not _ _ | .out _ | .inp _ | .noop => False

section Phase1

variable {s : State} {C : Prop}

theorem takesAddressFault_error (k : FailKind) : TakesAddressFault s (.error k) ↔ k = .addressFault := by
  refine ⟨fun h => ?_, fun h => by rw [h]; rfl⟩
  have hraise : s.raise k = s.raise .addressFault := Host.Outcome.next.inj h
  have hstatus := congrArg State.status hraise
  cases hstatus
  rfl

theorem not_takesAddressFault_pure (hs : s.status = .running) {t : State} (ht : t.status = s.status) :
    ¬ TakesAddressFault s (pure t) := by
  intro h
  have hcommit : t = s.raise .addressFault := Host.Outcome.next.inj h
  exact State.status_ne_failed_of_running (ht.trans hs) .addressFault (hcommit ▸ s.raise_status _)

theorem not_takesAddressFault_bind {α : Type} {m : Except FailKind α} {f : α → Except FailKind State}
    (hm : m ≠ .error .addressFault) (hf : ∀ x, ¬ TakesAddressFault s (f x)) : ¬ TakesAddressFault s (m >>= f) := by
  cases m with
  | ok x => exact hf x
  | error k => exact fun h => hm (congrArg Except.error ((takesAddressFault_error k).mp h))

theorem State.exists_rdOp_eq_ok (a : Operand) : (∃ v, s.rdOp a = .ok v) ↔ ¬ a.IsInvalid := by
  cases a with
  | lit v => exact iff_of_true ⟨_, rfl⟩ fun ⟨w, hw⟩ => nomatch hw
  | reg i => exact iff_of_true ⟨_, rfl⟩ fun ⟨w, hw⟩ => nomatch hw
  | invalid w => exact iff_of_false (fun ⟨v, hv⟩ => nomatch hv) fun h => h ⟨w, rfl⟩

@[simp] theorem takesAddressFault_rdOp {a : Operand} {f : Word → Except FailKind State} :
    TakesAddressFault s (s.rdOp a >>= f) ↔ a.IsInvalid ∨ ∃ v, s.rdOp a = .ok v ∧ TakesAddressFault s (f v) := by
  have hvalid := State.exists_rdOp_eq_ok (s := s) a
  cases h : s.rdOp a with
  | ok v =>
    have hnot : ¬ a.IsInvalid := hvalid.mp ⟨v, h⟩
    simp only [hnot, false_or, Except.ok.injEq, exists_eq_left']
    rfl
  | error k =>
    obtain ⟨rfl, hinv⟩ := State.rdOp_error h
    exact iff_of_true rfl (.inl hinv)

@[simp] theorem takesAddressFault_chkDst {a : Operand} {f : Unit → Except FailKind State} :
    TakesAddressFault s (chkDst a >>= f) ↔ a.IsInvalid ∨ TakesAddressFault s (f ()) := by
  cases a with
  | lit v => exact (or_iff_right fun ⟨w, hw⟩ => nomatch hw).symm
  | reg i => exact (or_iff_right fun ⟨w, hw⟩ => nomatch hw).symm
  | invalid w => exact iff_of_true rfl (.inl ⟨w, rfl⟩)

theorem takesAddressFault_chkRegDst {a : Operand} {f : Fin 8 → Except FailKind State}
    (hf : ∀ i, TakesAddressFault s (f i) ↔ C) :
    TakesAddressFault s (chkRegDst a >>= f) ↔ a.IsInvalid ∨ (∃ v, a = .lit v) ∨ C := by
  cases a with
  | lit v => exact iff_of_true rfl (.inr (.inl ⟨v, rfl⟩))
  | reg i => exact (hf i).trans (by simp [Operand.IsInvalid])
  | invalid w => exact iff_of_true rfl (.inl ⟨w, rfl⟩)

@[simp] theorem takesAddressFault_chkAddr {e : Word} {f : Unit → Except FailKind State} :
    TakesAddressFault s (chkAddr e >>= f) ↔ 32767 < e.toNat ∨ TakesAddressFault s (f ()) := by
  obtain ⟨h, hlt⟩ | ⟨h, hge⟩ := chkAddr_cases e
  · rw [h]; exact (or_iff_right (by omega)).symm
  · rw [h]; exact iff_of_true rfl (.inl hge)

@[simp] theorem takesAddressFault_chkTarget {u : Word} {f : Unit → Except FailKind State} :
    TakesAddressFault s (chkTarget u >>= f) ↔ 32767 < u.toNat ∨ TakesAddressFault s (f ()) := by
  obtain ⟨h, hlt⟩ | ⟨h, hge⟩ := chkTarget_cases u
  · rw [h]; exact (or_iff_right (by omega)).symm
  · rw [h]; exact iff_of_true rfl (.inl hge)

@[simp] theorem takesAddressFault_top {f : Word → Except FailKind State} :
    TakesAddressFault s (s.top >>= f) ↔ ∃ v, s.stack.head? = some v ∧ TakesAddressFault s (f v) := by
  obtain ⟨v, r, hstack, htop⟩ | ⟨hempty, htop⟩ := s.top_cases
  · rw [htop, hstack]
    simp only [List.head?_cons, Option.some.injEq, exists_eq_left']
    rfl
  · rw [htop, hempty]
    exact iff_of_false (fun h => nomatch (takesAddressFault_error _).mp h) (by simp)

end Phase1

/-! An operand is Invalid or has a value, so a cause that needs no value of it stands beside its own. -/

theorem invalid_or_value_and (s : State) (a : Operand) {D : Prop} :
    (a.IsInvalid ∨ (∃ v, s.rdOp a = .ok v) ∧ D) ↔ a.IsInvalid ∨ D := by
  rw [s.exists_rdOp_eq_ok]
  tauto

theorem invalid_or_value_or (s : State) (a : Operand) {C : Word → Prop} {D : Prop} :
    (a.IsInvalid ∨ ∃ v, s.rdOp a = .ok v ∧ (D ∨ C v)) ↔ a.IsInvalid ∨ D ∨ ∃ v, s.rdOp a = .ok v ∧ C v := by
  simp only [and_or_left, exists_or, exists_and_right, s.exists_rdOp_eq_ok]
  tauto

/-! The shared shapes of instructions. -/

section Shapes

variable {s : State} (hs : s.status = .running)
include hs

theorem aluBinary_addressFault_iff {f : Word → Word → Except FailKind Word} (a b c : Operand)
    (hf : ∀ x y, f x y ≠ .error .addressFault) :
    aluBinary f a b c s = .next (s.raise .addressFault) ↔ a.IsInvalid ∨ b.IsInvalid ∨ c.IsInvalid := by
  have hresult (x y : Word) : ¬ TakesAddressFault s (f x y >>= fun r => pure ((s.wrOp a r).advance 4)) :=
    not_takesAddressFault_bind (hf x y) fun r => not_takesAddressFault_pure hs (s.wrOp_status a r)
  change TakesAddressFault s _ ↔ _
  simp only [takesAddressFault_chkDst, takesAddressFault_rdOp, hresult, and_false, exists_false, or_false,
    exists_and_right, invalid_or_value_and]

/-- A result that cannot fail leaves the operands' classes as the only cause. -/
theorem aluBinary_total_addressFault_iff {g : Word → Word → Word} (a b c : Operand) :
    aluBinary (fun x y => .ok (g x y)) a b c s = .next (s.raise .addressFault) ↔
      a.IsInvalid ∨ b.IsInvalid ∨ c.IsInvalid :=
  aluBinary_addressFault_iff hs a b c fun _ _ h => nomatch h

theorem branch_addressFault_iff (p : Word → Bool) (a b : Operand) :
    branch p a b s = .next (s.raise .addressFault) ↔ a.IsInvalid ∨ b.IsInvalid ∨
      ∃ v, s.rdOp a = .ok v ∧ ∃ t, s.rdOp b = .ok t ∧ p v = true ∧ 32767 < t.toNat := by
  have htransfer (v t : Word) : TakesAddressFault s
      (if p v = true then chkTarget t >>= fun _ => pure (s.jump t) else pure (s.advance 3)) ↔
        p v = true ∧ 32767 < t.toNat := by
    split
    · next hp =>
      rw [takesAddressFault_chkTarget, or_iff_left (not_takesAddressFault_pure hs (s.jump_status t))]
      exact (and_iff_right hp).symm
    · next hp => exact iff_of_false (not_takesAddressFault_pure hs (s.advance_status 3)) fun ⟨h, _⟩ => hp h
  change TakesAddressFault s _ ↔ _
  simp only [takesAddressFault_rdOp, htransfer, invalid_or_value_or]

end Shapes

theorem modWord_ne_addressFault (x y : Word) : modWord x y ≠ .error .addressFault := by
  intro h
  cases (modWord_error h).left

theorem not_takesAddressFault_halt (s : State) : ¬ TakesAddressFault s (.ok s.halt) := by
  intro h
  have hcommit : s.halt = s.raise .addressFault := Host.Outcome.next.inj h
  cases congrArg State.status hcommit

theorem exec_inp_addressFault_iff {s : State} (hs : s.status = .running) (a : Operand) :
    exec (.inp a) s = .next (s.raise .addressFault) ↔ a.IsInvalid := by
  refine takesAddressFault_chkDst.trans (or_iff_left ?_)
  split
  · exact not_takesAddressFault_pure hs s.awaitInput_status
  · exact not_takesAddressFault_pure hs (s.inDequeue.wrOp_status a _)

/-- An instruction raises AddressFault exactly on an Invalid operand word, in any position, and in its range cause. -/
theorem exec_addressFault_iff {s : State} (hs : s.status = .running) (i : Instr) :
    exec i s = .next (s.raise .addressFault) ↔ (∃ a ∈ i.operands, a.IsInvalid) ∨ rangeCause s i := by
  cases i with
  | halt => exact iff_of_false (not_takesAddressFault_halt s) (by simp [Instr.operands, rangeCause])
  | set a b =>
    refine (takesAddressFault_chkRegDst (C := b.IsInvalid) fun i => ?_).trans ?_
    · simp [not_takesAddressFault_pure, hs, -bind_pure_comp]
    · simp [Instr.operands, rangeCause, or_assoc, or_comm]
  | push a | out a =>
    refine takesAddressFault_rdOp.trans ?_
    simp [not_takesAddressFault_pure, hs, Instr.operands, rangeCause]
  | pop a =>
    refine takesAddressFault_chkDst.trans ?_
    simp [not_takesAddressFault_pure, hs, Instr.operands, rangeCause, -bind_pure_comp]
  | jmp a | call a =>
    refine takesAddressFault_rdOp.trans ?_
    simp [not_takesAddressFault_pure, hs, Instr.operands, rangeCause, -bind_pure_comp]
  | jt a b | jf a b =>
    refine (branch_addressFault_iff hs _ a b).trans ?_
    simp [Instr.operands, rangeCause, isNonzero, isZero, or_assoc]
  | eq a b c | gt a b c | add a b c | mult a b c | and a b c | or a b c =>
    refine (aluBinary_total_addressFault_iff hs a b c).trans ?_
    simp [Instr.operands, rangeCause]
  | mod a b c =>
    refine (aluBinary_addressFault_iff hs a b c modWord_ne_addressFault).trans ?_
    simp [Instr.operands, rangeCause]
  | not a b =>
    refine takesAddressFault_chkDst.trans ?_
    simp [not_takesAddressFault_pure, hs, Instr.operands, rangeCause, -bind_pure_comp]
  | rmem a b =>
    refine takesAddressFault_chkDst.trans ?_
    simp [not_takesAddressFault_pure, hs, Instr.operands, rangeCause, or_assoc, -bind_pure_comp]
  | wmem a b =>
    refine takesAddressFault_rdOp.trans ?_
    simp [not_takesAddressFault_pure, hs, Instr.operands, rangeCause,
      or_assoc, invalid_or_value_and, invalid_or_value_or, -bind_pure_comp]
  | ret =>
    refine takesAddressFault_top.trans ?_
    simp [not_takesAddressFault_pure, hs, Instr.operands, rangeCause, -bind_pure_comp]
  | inp a => simpa [Instr.operands, rangeCause] using exec_inp_addressFault_iff hs a
  | noop =>
    have hcommit := not_takesAddressFault_pure hs (s.advance_status 1)
    exact iff_of_false hcommit (by simp [Instr.operands, rangeCause])

/-! The statement's list of causes. -/

theorem exists_isInvalid_iff (i : Instr) :
    (∃ a ∈ i.operands, a.IsInvalid) ↔ ∃ w, Operand.invalid w ∈ i.operands := by
  refine ⟨?_, fun ⟨w, hw⟩ => ⟨_, hw, w, rfl⟩⟩
  rintro ⟨_, ha, w, rfl⟩
  exact ⟨w, ha⟩

theorem rangeCause_iff (s : State) (i : Instr) :
    rangeCause s i ↔
      (∃ v b, i = .set (.lit v) b) ∨
      (∃ a b e, (i = .rmem a b ∧ s.rdOp b = .ok e ∨ i = .wmem a b ∧ s.rdOp a = .ok e) ∧ 32767 < e.toNat) ∨
      (∃ t : Word, 32767 < t.toNat ∧
        ((∃ a, (i = .jmp a ∨ i = .call a) ∧ s.rdOp a = .ok t) ∨
         (∃ a b v, (i = .jt a b ∧ v ≠ 0 ∨ i = .jf a b ∧ v = 0) ∧ s.rdOp a = .ok v ∧ s.rdOp b = .ok t) ∨
         (i = .ret ∧ s.stack.head? = some t))) := by
  cases i with
  | jmp a | call a | ret => simp [rangeCause, and_comm]
  | jt a b | jf a b => simp only [rangeCause]; grind
  | _ => simp [rangeCause]

/-- For a fetched instruction the statement's causes are the instruction's own. -/
theorem addressFaultCause_iff_of_fetchInstr_ok {s : State} {i : Instr} (hi : s.fetchInstr = .ok i) :
    Claims.AddressFaultCause s ↔ (∃ a ∈ i.operands, a.IsInvalid) ∨ rangeCause s i := by
  rw [exists_isInvalid_iff, rangeCause_iff]
  have hfits := State.fits_of_fetchInstr_ok hi
  constructor
  · rintro (hpc | ⟨hpc, j, hop, hnot⟩ | ⟨j, hj, hcause⟩)
    · have hlen := i.length_eq
      omega
    · cases (State.fetchInstr_of_not_fits hpc hop hnot).symm.trans hi
    · cases hj.symm.trans hi
      exact hcause
  · exact fun hcause => .inr (.inr ⟨i, hi, hcause⟩)

/-- Settles O43, by what the fetch answers: a rejection for its range or its opcode word, or an instruction, which raises
AddressFault exactly for its own causes. -/
theorem addressFaultExactly : Obligations.AddressFaultExactly := by
  refine ⟨rfl, fun s hs => ?_⟩
  change step s = .next (s.raise .addressFault) ↔ _
  cases hf : s.fetchInstr with
  | ok i =>
    rw [step_of_fetchInstr_ok hs hf, exec_addressFault_iff hs, addressFaultCause_iff_of_fetchInstr_ok hf]
  | error e =>
    rw [step_of_fetchInstr_error hs hf]
    refine (takesAddressFault_error _).trans ?_
    obtain ⟨hpc, hf'⟩ | ⟨hpc, hnone, hf'⟩ | ⟨hpc, op, hop, ⟨i, hf', -⟩ | ⟨hf', hlong⟩⟩ := s.fetchInstr_cases
    · cases hf'.symm.trans hf
      exact iff_of_true rfl (.inl hpc)
    · cases hf'.symm.trans hf
      refine iff_of_false FailKind.noConfusion ?_
      rintro (hout | ⟨-, i, hop, -⟩ | ⟨i, hok, -⟩)
      · omega
      · cases hnone.symm.trans hop
      · cases hok.symm.trans hf
    · cases hf'.symm.trans hf
    · cases hf'.symm.trans hf
      obtain ⟨i, hi⟩ := op.exists_instr
      have hnot : ¬ Fits s i.length := by
        have := hlong i hi
        omega
      exact iff_of_true rfl (.inr (.inl ⟨by omega, i, hi ▸ hop, hnot⟩))

end Sys2Proof.Machine
end

section
/-! The Output Stream is written and never read (spec/10_state R32): every part of a cycle does the same from a state
with other output before its own. -/

namespace Sys2Proof.Machine

/-- The state with other output before its own. -/
def State.withEarlierOut (s : State) (o : List Word) : State := { s with out := o ++ s.out }

/-- The outcome with other output before a next state's own. -/
def outcomeWithEarlierOut (o : List Word) : StepOutcome → StepOutcome
  | .next t => .next (t.withEarlierOut o)
  | .fault r => .fault r
  | .refused r => .refused r

/-- Phase 1 from a state and from the same state with earlier output, `p` and `q`, have the same outcome but for that
output. -/
def OutBlind (o : List Word) (s : State) (p q : Except FailKind State) : Prop :=
  (s.withEarlierOut o).complete q = outcomeWithEarlierOut o (s.complete p)

section

variable {o : List Word} {s : State}

@[simp] theorem State.withEarlierOut_status : (s.withEarlierOut o).status = s.status := rfl
@[simp] theorem State.withEarlierOut_inq : (s.withEarlierOut o).inq = s.inq := rfl
@[simp] theorem State.withEarlierOut_hostTurns : (s.withEarlierOut o).hostTurns = s.hostTurns := rfl
@[simp] theorem State.withEarlierOut_fetchInstr : (s.withEarlierOut o).fetchInstr = s.fetchInstr := rfl

theorem State.rdOp_withEarlierOut (a : Operand) : (s.withEarlierOut o).rdOp a = s.rdOp a := State.rdOp_congr rfl a

theorem State.wrOp_withEarlierOut (a : Operand) (v : Word) :
    (s.withEarlierOut o).wrOp a v = (s.wrOp a v).withEarlierOut o := by
  cases a <;> rfl

theorem State.outAppend_withEarlierOut (v : Word) :
    (s.withEarlierOut o).outAppend v = (s.outAppend v).withEarlierOut o := by
  simp only [State.outAppend, State.withEarlierOut, List.append_assoc]

theorem State.awaitInput_withEarlierOut : (s.withEarlierOut o).awaitInput = s.awaitInput.withEarlierOut o := by
  unfold State.awaitInput
  rw [State.withEarlierOut_hostTurns]
  cases Config.hostLine s.hostTurns <;> rfl

theorem outBlind_ok {t u : State} (h : u = t.withEarlierOut o) : OutBlind o s (.ok t) (.ok u) := by
  rw [h]; rfl

theorem outBlind_bind {α : Type} {m : Except FailKind α} {f g : α → Except FailKind State}
    (h : ∀ x, OutBlind o s (f x) (g x)) : OutBlind o s (m >>= f) (m >>= g) := by
  cases m with
  | ok x => exact h x
  | error k => rfl

theorem outBlind_rdOp {a : Operand} {f g : Word → Except FailKind State} (h : ∀ v, OutBlind o s (f v) (g v)) :
    OutBlind o s (s.rdOp a >>= f) ((s.withEarlierOut o).rdOp a >>= g) := by
  rw [State.rdOp_withEarlierOut]
  exact outBlind_bind h

theorem aluBinary_withEarlierOut (f : Word → Word → Except FailKind Word) (a b c : Operand) :
    aluBinary f a b c (s.withEarlierOut o) = outcomeWithEarlierOut o (aluBinary f a b c s) :=
  outBlind_bind fun _ => outBlind_rdOp fun _ => outBlind_rdOp fun _ => outBlind_bind fun r =>
    outBlind_ok (congrArg (State.advance · 4) (State.wrOp_withEarlierOut a r))

theorem branch_withEarlierOut (p : Word → Bool) (a b : Operand) :
    branch p a b (s.withEarlierOut o) = outcomeWithEarlierOut o (branch p a b s) := by
  refine outBlind_rdOp fun v => outBlind_rdOp fun t => ?_
  split
  · exact outBlind_bind fun _ => outBlind_ok rfl
  · exact outBlind_ok rfl

theorem exec_inp_withEarlierOut (a : Operand) :
    exec (.inp a) (s.withEarlierOut o) = outcomeWithEarlierOut o (exec (.inp a) s) := by
  refine outBlind_bind fun _ => ?_
  rw [State.withEarlierOut_inq]
  split
  · exact outBlind_ok State.awaitInput_withEarlierOut
  · next ch r _ =>
    exact outBlind_ok (congrArg (State.advance · 2) (State.wrOp_withEarlierOut (s := s.inDequeue) a ch))

end

theorem exec_withEarlierOut (i : Instr) (s : State) (o : List Word) :
    exec i (s.withEarlierOut o) = outcomeWithEarlierOut o (exec i s) := by
  cases i with
  | halt | noop => rfl
  | set a b => exact outBlind_bind fun _ => outBlind_rdOp fun _ => outBlind_ok rfl
  | push a => exact outBlind_rdOp fun _ => outBlind_ok rfl
  | pop a =>
    exact outBlind_bind fun _ => outBlind_bind fun v =>
      outBlind_ok (congrArg (State.advance · 2) (State.wrOp_withEarlierOut (s := s.popped) a v))
  | eq a b c | gt a b c | add a b c | mult a b c | mod a b c | and a b c | or a b c =>
    exact aluBinary_withEarlierOut _ a b c
  | jt a b | jf a b => exact branch_withEarlierOut _ a b
  | jmp a | call a => exact outBlind_rdOp fun _ => outBlind_bind fun _ => outBlind_ok rfl
  | not a b =>
    exact outBlind_bind fun _ => outBlind_rdOp fun v =>
      outBlind_ok (congrArg (State.advance · 3) (State.wrOp_withEarlierOut a (notWord v)))
  | rmem a b =>
    exact outBlind_bind fun _ => outBlind_rdOp fun e => outBlind_bind fun _ =>
      outBlind_ok (congrArg (State.advance · 3) (State.wrOp_withEarlierOut a (s.memRead e.toNat)))
  | wmem a b => exact outBlind_rdOp fun _ => outBlind_rdOp fun _ => outBlind_bind fun _ => outBlind_ok rfl
  | ret => exact outBlind_bind fun _ => outBlind_bind fun _ => outBlind_ok rfl
  | out a =>
    exact outBlind_rdOp fun v => outBlind_ok (congrArg (State.advance · 2) (State.outAppend_withEarlierOut v))
  | inp a => exact exec_inp_withEarlierOut a

/-- Settles O51: the fetch does not see the Output Stream, and no instruction reads it. -/
theorem outputIsNeverRead : Obligations.OutputIsNeverRead := by
  intro s t o hstep
  change step (s.withEarlierOut o) = .next (t.withEarlierOut o)
  obtain ⟨hs, ⟨i, hi, hexec⟩ | ⟨e, he, rfl⟩⟩ := step_cases hstep
  · rw [step_of_fetchInstr_ok (by simpa using hs) (by simpa using hi), exec_withEarlierOut, hexec]
    rfl
  · exact step_of_fetchInstr_error (by simpa using hs) (by simpa using he)

end Sys2Proof.Machine
end

section
/-! RESET, an image given as bytes, and STATUS as the host reads it (spec/70_reset R190, 20_memory R42, R43,
10_state R35). -/

namespace Sys2Proof.Machine

theorem State.boot_of_length_le {image : List Word} (preseed : List Word) (h : image.length ≤ 32768) :
    State.boot image preseed =
      some { State.reset with mem := Memory.writeWords [] 0 image, inq := preseed } := if_pos h

/-- Settles O54: the image is written from cell 0 on to a memory that lists no cell. -/
theorem bootLoadsImage : Obligations.BootLoadsImage := by
  intro image preseed hle
  refine ⟨_, State.boot_of_length_le preseed hle, fun x _ => ?_⟩
  refine (Memory.read_writeWords [] 0 x image).trans ?_
  simp only [Nat.zero_le, true_and, Nat.sub_zero, Memory.read]

/-- Settles O55: all but the memory and the queue is reset's, and the length of the image is the one check. -/
theorem bootSetsTheRest : Obligations.BootSetsTheRest := by
  intro image preseed
  refine ⟨fun s hs => ?_, fun hlong => if_neg (by omega)⟩
  obtain ⟨-, rfl⟩ := State.boot_eq_some hs
  exact ⟨fun j => Vector.getElem_replicate j.isLt, rfl, rfl, rfl, rfl, rfl⟩

/-- Settles O56: the empty image writes nothing, and the word 0 that cell 0 then holds is `halt`. -/
theorem emptyImageHaltsAtOnce : Obligations.EmptyImageHaltsAtOnce := by
  have hdecode : decode State.reset.fetchWords = .ok (.halt, [0, 0, 0]) := by decide
  refine ⟨State.boot_of_length_le [] (Nat.zero_le _), ?_⟩
  rw [stepRunsDecodedInstruction State.reset .halt _ rfl hdecode]
  exact haltChangesStatusOnly.right State.reset

theorem toNat_littleEndian (lo hi : Byte) : (BitVec.ofNat 16 (lo.toNat + 256 * hi.toNat)).toNat =
    lo.toNat + 256 * hi.toNat := by
  rw [BitVec.toNat_ofNat]
  omega

/-- Settles O57, by induction along `wordsOfBytes`, two bytes at a time. -/
theorem imageBytesAreLittleEndian : Obligations.ImageBytesAreLittleEndian := by
  intro bs
  induction bs using wordsOfBytes.induct with
  | case1 => exact ⟨nofun, fun _ => ⟨[], rfl, rfl, nofun⟩⟩
  | case2 b => exact ⟨fun _ => rfl, nofun⟩
  | case3 lo hi bs ih =>
    obtain ⟨hodd, heven⟩ := ih
    rw [wordsOfBytes, List.length_cons, List.length_cons]
    refine ⟨fun h => ?_, fun h => ?_⟩
    · rw [hodd (by omega)]; rfl
    · obtain ⟨ws, hws, hlen, hbytes⟩ := heven (by omega)
      rw [hws]
      refine ⟨_, rfl, by rw [List.length_cons]; omega, fun i w lo' hi' hw hlo hhi => ?_⟩
      cases i with
      | zero =>
        cases hw; cases hlo; cases hhi
        exact toNat_littleEndian lo hi
      | succ i => exact hbytes i w lo' hi' hw hlo hhi

/-- Settles O58: the two fields of each status value. -/
theorem statusFields : Obligations.StatusFields := ⟨rfl, rfl, rfl, rfl, rfl, rfl⟩

end Sys2Proof.Machine
end

section
/-! The run loop and its budget (spec/46_execution_loop R148 to R152): when it returns, what it does otherwise, and from
these its continuation and its count of cycles. -/

namespace Sys2Proof.Machine

/-- The budget that one step from a state leaves: a waiting step completes no cycle (R148). -/
def budgetAfter (s : State) (budget : Nat) : Nat := if s.waiting then budget else budget - 1

section

variable {s t u : State} {ticks n m : Nat}

theorem run_of_done (h : n = 0 ∨ s.status ≠ .running) (ticks : Nat) : run ticks n s = some s := by
  cases ticks with
  | zero => exact if_pos h
  | succ ticks => exact if_pos h

theorem run_succ_of_step (h : ¬ (n = 0 ∨ s.status ≠ .running)) (hstep : step s = .next t) :
    run (ticks + 1) n s = run ticks (budgetAfter s n) t := by
  rw [run, if_neg h, hstep]
  rfl

/-- Everything a run that has returned can have done: nothing, or one step and then the rest. -/
theorem run_cases (h : run ticks n s = some u) :
    ((n = 0 ∨ s.status ≠ .running) ∧ u = s) ∨
      (¬ (n = 0 ∨ s.status ≠ .running) ∧
        ∃ k t, ticks = k + 1 ∧ step s = .next t ∧ run k (budgetAfter s n) t = some u) := by
  by_cases hdone : n = 0 ∨ s.status ≠ .running
  · rw [run_of_done hdone] at h
    cases h
    exact .inl ⟨hdone, rfl⟩
  · refine .inr ⟨hdone, ?_⟩
    cases ticks with
    | zero => rw [run, if_neg hdone] at h; cases h
    | succ k =>
      rw [run, if_neg hdone] at h
      split at h
      · next t hstep => exact ⟨k, t, rfl, hstep, h⟩
      · cases h
      · cases h

/-- A run that returned within some steps of the model returns the same within more. -/
theorem run_add_ticks (j : Nat) (h : run ticks n s = some u) : run (j + ticks) n s = some u := by
  induction ticks generalizing n s with
  | zero =>
    obtain ⟨hdone, rfl⟩ | ⟨-, k, t, hk, -⟩ := run_cases h
    · exact run_of_done hdone _
    · cases hk
  | succ ticks ih =>
    obtain ⟨hdone, rfl⟩ | ⟨hgo, k, t, hk, hstep, hrun⟩ := run_cases h
    · exact run_of_done hdone _
    · cases hk
      rw [← Nat.add_assoc, run_succ_of_step hgo hstep]
      exact ih hrun

theorem budgetAfter_add (hn : n ≠ 0) (m : Nat) : budgetAfter s (n + m) = budgetAfter s n + m := by
  unfold budgetAfter
  split <;> omega

/-- A run that had nothing to do adds nothing to the one that follows. -/
theorem run_add_of_done (hdone : n = 0 ∨ s.status ≠ .running) (j : Nat) (h : run ticks m s = some u) :
    run (j + ticks) (n + m) s = some u := by
  obtain rfl | hnot := hdone
  · rw [Nat.zero_add]
    exact run_add_ticks j h
  · rw [run_of_not_running hnot] at h ⊢
    exact h

end

/-- Settles O59, by induction on the model steps of the first run. -/
theorem runContinues : Obligations.RunContinues := by
  intro j
  induction j with
  | zero =>
    intro k n m s t u hfirst hsecond
    obtain ⟨hdone, rfl⟩ | ⟨-, _, _, hj, -⟩ := run_cases hfirst
    · exact run_add_of_done hdone 0 hsecond
    · cases hj
  | succ j ih =>
    intro k n m s t u hfirst hsecond
    obtain ⟨hdone, rfl⟩ | ⟨hgo, _, v, hj, hstep, hrest⟩ := run_cases hfirst
    · exact run_add_of_done hdone (j + 1) hsecond
    · cases hj
      have hn : n ≠ 0 := fun h => hgo (.inl h)
      have hgo' : ¬ (n + m = 0 ∨ s.status ≠ .running) := fun h => hgo (h.imp_left (by omega))
      rw [Nat.succ_add, run_succ_of_step hgo' hstep, budgetAfter_add hn]
      exact ih k _ m v t u hrest hsecond

/-! Counting cycles. -/

theorem coreRun_succ_of_next {M : Host.Core} {k : Nat} {s t : M.State} (h : M.step s = .next t) :
    M.run (k + 1) s = M.run k t := by
  rw [Host.Core.run, h]

theorem completedCycles_succ_of_step {k : Nat} {s t : State} (h : step s = .next t) :
    completedCycles (k + 1) s = (if s.waiting then 0 else 1) + completedCycles k t := by
  rw [completedCycles, h]

theorem completed_add_budgetAfter (s : State) {n : Nat} (hn : n ≠ 0) :
    (if s.waiting then 0 else 1) + budgetAfter s n = n := by
  unfold budgetAfter
  split <;> omega

/-- Settles O60: with budget 0 no step is made; and by induction on the model steps, a run that ends Running ends
because its budget is used up, of which each step takes what it completes. -/
theorem runCompletesItsBudget : Obligations.RunCompletesItsBudget := by
  refine ⟨fun ticks s => run_of_done (.inl rfl) ticks, fun ticks => ?_⟩
  induction ticks with
  | zero =>
    intro n s t hrun ht
    obtain ⟨hdone, rfl⟩ | ⟨-, _, _, hk, -⟩ := run_cases hrun
    · exact ⟨0, le_rfl, rfl, (hdone.resolve_right (not_not_intro ht)).symm⟩
    · cases hk
  | succ ticks ih =>
    intro n s t hrun ht
    obtain ⟨hdone, rfl⟩ | ⟨hgo, _, v, hk, hstep, hrest⟩ := run_cases hrun
    · exact ⟨0, Nat.zero_le _, rfl, (hdone.resolve_right (not_not_intro ht)).symm⟩
    · cases hk
      obtain ⟨k, hle, hcore, hcycles⟩ := ih _ v t hrest ht
      refine ⟨k + 1, Nat.succ_le_succ hle, (coreRun_succ_of_next (M := core) hstep).trans hcore, ?_⟩
      rw [completedCycles_succ_of_step hstep, hcycles, completed_add_budgetAfter s fun h => hgo (.inl h)]

end Sys2Proof.Machine
end
